-- ==== Sys2Proof/Word.lean ====
section
/-! DEFINITION. The word types of GPEG-XF8 (00_scope.md R7, R8), the eight-word vector the 1-D kernels map, and the
datapath's working registers (10_state.md R23). -/

namespace Sys2Proof

/-- An int32 held as its 32-bit two's-complement pattern (00_scope.md R8). -/
abbrev Word := BitVec 32

/-- A BUF word address: 8 bits, so that address sums wrap mod 256 (20_memory.md R60, R68). -/
abbrev Addr := BitVec 8

/-- A host word offset: 9 bits (10_state.md R26). -/
abbrev Offset := BitVec 9

/-- Eight words: the input or the output of a 1-D kernel (00_scope.md R7 `NPT`). -/
structure Vec8 where
  x0 : Word
  x1 : Word
  x2 : Word
  x3 : Word
  x4 : Word
  x5 : Word
  x6 : Word
  x7 : Word
deriving DecidableEq, Repr, Inhabited

/-- The eleven int32 working registers of the datapath (10_state.md R23). -/
structure Work where
  t0 : Word
  t1 : Word
  t2 : Word
  t3 : Word
  t4 : Word
  t5 : Word
  t6 : Word
  t7 : Word
  h1 : Word
  h4 : Word
  h6 : Word
deriving DecidableEq, Repr, Inhabited

end Sys2Proof
end

