-- ==== Sys2Proof/Syntax.lean ====
section
/-! DEFINITION. The commands of the XF8 command set, one constructor per row of the opcode table (30_encoding.md R94). -/

namespace Sys2Proof

/-- A command with its operands as 30_encoding.md R92 and R97 name them: `src` is field A, `dst` field B, and the last
operand field C. -/
inductive Instr where
  | nop
  | rsh (src dst : Addr) (b : BitVec 5)
  | fdct8 (src dst stride : Addr)
  | idct8 (src dst stride : Addr)
  | fdct8x8 (src dst tmp : Addr)
  | idct8x8 (src dst tmp : Addr)
deriving DecidableEq, Repr

end Sys2Proof
end

