-- ==== Sys2Proof/WellFormed.lean ====
section
/-! DEFINITION. Which command terms an encoding exists for (30_encoding.md R95, R98). -/

namespace Sys2Proof

/-- The one operand condition that the field widths do not already give: RSH's shift count is 1..31
(30_encoding.md R95 "SH = w[4:0] != 0", R98 "An assembler refuses ... `b = 0`"). -/
def Instr.wf : Instr → Bool
  | .nop => true
  | .rsh _ _ b => b != 0
  | .fdct8 _ _ _ => true
  | .idct8 _ _ _ => true
  | .fdct8x8 _ _ _ => true
  | .idct8x8 _ _ _ => true

/-- `Instr.wf` as a proposition. -/
abbrev Instr.WellFormed (i : Instr) : Prop := i.wf = true

end Sys2Proof
end

