-- ==== Sys2Proof/Decode.lean ====
section
/-! DEFINITION. Decoding a command word (30_encoding.md R91, R95, R97), total over all 2^32 words and rejecting by name,
and after it the encoder (30_encoding.md R98). -/

namespace Sys2Proof

/-- Why a word is illegal (30_encoding.md R95 lists the cases). -/
inductive DecodeError where
  /-- RSV = w[27:24] is not 0. -/
  | reservedField
  /-- OP = 0x0 and the word is not 0x00000000. -/
  | nopOperand
  /-- OP = 0x1 and C[7:5] is not 0. -/
  | rshHighBits
  /-- OP = 0x1 and SH = C[4:0] is 0. -/
  | rshShiftZero
  /-- OP is one of 0x6..0xF (30_encoding.md R96). -/
  | reservedOpcode
deriving DecidableEq, Repr

/-- OP = w[31:28] (30_encoding.md R91). -/
def opField (w : Word) : BitVec 4 := w.extractLsb' 28 4

/-- RSV = w[27:24] (30_encoding.md R91). -/
def rsvField (w : Word) : BitVec 4 := w.extractLsb' 24 4

/-- A = w[23:16] (30_encoding.md R91). -/
def aField (w : Word) : Addr := w.extractLsb' 16 8

/-- B = w[15:8] (30_encoding.md R91). -/
def bField (w : Word) : Addr := w.extractLsb' 8 8

/-- C = w[7:0] (30_encoding.md R91). -/
def cField (w : Word) : BitVec 8 := w.extractLsb' 0 8

/-- C[7:5], which must be 0 in an RSH word (30_encoding.md R91). -/
def cHighField (w : Word) : BitVec 3 := w.extractLsb' 5 3

/-- SH = C[4:0] (30_encoding.md R91). -/
def shField (w : Word) : BitVec 5 := w.extractLsb' 0 5

/-- The decode function of 30_encoding.md R97. -/
def decode (w : Word) : Except DecodeError Instr :=
  if rsvField w ≠ 0 then .error .reservedField
  else if opField w = 0 then
    if w = 0 then .ok .nop else .error .nopOperand
  else if opField w = 1 then
    if cHighField w ≠ 0 then .error .rshHighBits
    else if shField w = 0 then .error .rshShiftZero
    else .ok (.rsh (aField w) (bField w) (shField w))
  else if opField w = 2 then .ok (.fdct8 (aField w) (bField w) (cField w))
  else if opField w = 3 then .ok (.idct8 (aField w) (bField w) (cField w))
  else if opField w = 4 then .ok (.fdct8x8 (aField w) (bField w) (cField w))
  else if opField w = 5 then .ok (.idct8x8 (aField w) (bField w) (cField w))
  else .error .reservedOpcode

/-- A word is legal when it decodes (30_encoding.md R95: "Every other word is illegal"). -/
def isLegal (w : Word) : Bool :=
  match decode w with
  | .ok _ => true
  | .error _ => false

/-- A command word from its fields; RSV is 0 in every legal command (30_encoding.md R91). -/
def packFields (op : BitVec 4) (a b : Addr) (c : BitVec 8) : Word :=
  op ++ (0#4 : BitVec 4) ++ a ++ b ++ c

/-- The word of a command (30_encoding.md R98). -/
def encode : Instr → Word
  | .nop => 0x00000000#32
  | .rsh src dst b => packFields 0x1#4 src dst ((0#3 : BitVec 3) ++ b)
  | .fdct8 src dst stride => packFields 0x2#4 src dst stride
  | .idct8 src dst stride => packFields 0x3#4 src dst stride
  | .fdct8x8 src dst tmp => packFields 0x4#4 src dst tmp
  | .idct8x8 src dst tmp => packFields 0x5#4 src dst tmp

/-- The opcode table's numbering is the command word's own: bit i of the table's number is bit i of the word
(30_encoding.md R90, R91; 20_memory.md R64). Every command is one 32-bit word, so a longer number is no command. -/
def decodeTableWord (nbits w : Nat) : Option Instr :=
  if nbits ≤ 32 then
    match decode (BitVec.ofNat 32 (w % 2 ^ nbits)) with
    | .ok i => some i
    | .error _ => none
  else none

end Sys2Proof
end

