-- ==== Sys2Proof/Machine/Shift.lean ====
section
/-! DEFINITION. The shifts of the datapath and the unbiased rounding shift (00_scope.md R9, 40_rounding_shift.md R120). -/

namespace Sys2Proof.Machine

/-- `asr(v, n)`: arithmetic shift right, `floor(v / 2^n)` (00_scope.md R9). -/
def asr (v : Word) (n : Nat) : Word := v.sshiftRight n

/-- `lsr(v, n)`: logical shift right of the unsigned reading (00_scope.md R9). -/
def lsr (v : Word) (n : Nat) : Word := v >>> n

/-- `RSHIFT(a, b)` for 1 <= b <= 31 (40_rounding_shift.md R120): add the top b bits of `a`, as an unsigned number, with a
32-bit wrap, then shift right arithmetically by b. -/
def rshift (a : Word) (b : Nat) : Word := asr (lsr a (32 - b) + a) b

/-- `RSH1(v)`: the halving of the kernels (40_rounding_shift.md R125, 41_forward.md R143). -/
def rsh1 (v : Word) : Word := rshift v 1

end Sys2Proof.Machine
end

