-- ==== Sys2Proof/Machine/Lifting.lean ====
section
/-! DEFINITION. The lifting constants and the lifting operation, and the micro-steps of the datapath
(41_forward.md R141, R145, R146, R147). -/

namespace Sys2Proof.Machine

/-- A lifting constant `(M, O, S)` with `O = 2^(S-1)` (41_forward.md R145), as LIFT[k] shows it (10_state.md R35). -/
structure LiftConst where
  m : BitVec 16
  s : BitVec 5
deriving DecidableEq, Repr

/-- A table of the 15 lifting constants, indexed by the forward kernel's lifting-step number (41_forward.md R146). The kernels
take it as an argument (00_scope.md R7 `LIFT`; log 11). -/
abbrev LiftTable := Fin 15 → LiftConst

/-- The default contents of LIFT (41_forward.md R146; the values are the spec's general knowledge, log 11). -/
def liftTable : LiftTable
  | 0 => ⟨13573, 15⟩
  | 1 => ⟨11585, 14⟩
  | 2 => ⟨13573, 15⟩
  | 3 => ⟨21895, 15⟩
  | 4 => ⟨15137, 14⟩
  | 5 => ⟨21895, 15⟩
  | 6 => ⟨19195, 15⟩
  | 7 => ⟨11585, 14⟩
  | 8 => ⟨7489, 13⟩
  | 9 => ⟨3227, 15⟩
  | 10 => ⟨6393, 15⟩
  | 11 => ⟨3227, 15⟩
  | 12 => ⟨2485, 13⟩
  | 13 => ⟨18205, 15⟩
  | 14 => ⟨2485, 13⟩

/-- The rounding offset `O = 2^(S-1)` (41_forward.md R145). -/
def liftOffset (c : LiftConst) : Nat := 2 ^ (c.s.toNat - 1)

/-- `LIFT(v, k)` (41_forward.md R147): the low 32 bits of the product, plus the offset with a wrap, shifted right
arithmetically by S. -/
def lift (c : LiftConst) (v : Word) : Word :=
  asr (v * c.m.setWidth 32 + BitVec.ofNat 32 (liftOffset c)) c.s.toNat

/-- Names of the working registers (10_state.md R23). -/
inductive Reg where
  | t0
  | t1
  | t2
  | t3
  | t4
  | t5
  | t6
  | t7
  | h1
  | h4
  | h6
deriving DecidableEq, Repr

/-- A working register's value (00_scope.md R10). -/
def getReg (w : Work) : Reg → Word
  | .t0 => w.t0
  | .t1 => w.t1
  | .t2 => w.t2
  | .t3 => w.t3
  | .t4 => w.t4
  | .t5 => w.t5
  | .t6 => w.t6
  | .t7 => w.t7
  | .h1 => w.h1
  | .h4 => w.h4
  | .h6 => w.h6

/-- Writes a working register (00_scope.md R10). -/
def setReg (w : Work) (r : Reg) (v : Word) : Work :=
  match r with
  | .t0 => { w with t0 := v }
  | .t1 => { w with t1 := v }
  | .t2 => { w with t2 := v }
  | .t3 => { w with t3 := v }
  | .t4 => { w with t4 := v }
  | .t5 => { w with t5 := v }
  | .t6 => { w with t6 := v }
  | .t7 => { w with t7 := v }
  | .h1 => { w with h1 := v }
  | .h4 => { w with h4 := v }
  | .h6 => { w with h6 := v }

/-- An operand of an ADD or SUB: a register, or a HALF of one computed inline (41_forward.md R141). -/
inductive Operand where
  | reg (r : Reg)
  | half (r : Reg)
deriving DecidableEq, Repr

/-- The micro-step kinds (41_forward.md R141). -/
inductive MicroStep where
  /-- `d <- p + q` -/
  | add (d : Reg) (p q : Operand)
  /-- `d <- p - q` -/
  | sub (d : Reg) (p q : Operand)
  /-- `d <- RSH1(p)` -/
  | half (d p : Reg)
  /-- `d <- d + LIFT(p, k)` -/
  | liftAdd (d p : Reg) (k : Fin 15)
  /-- `d <- d - LIFT(p, k)` -/
  | liftSub (d p : Reg) (k : Fin 15)
deriving DecidableEq, Repr

/-- The value of an ADD or SUB operand. -/
def operandValue (w : Work) : Operand → Word
  | .reg r => getReg w r
  | .half r => rsh1 (getReg w r)

/-- One micro-step; every sum and difference wraps modulo 2^32 (41_forward.md R141, R142). -/
def microStep (T : LiftTable) (w : Work) : MicroStep → Work
  | .add d p q => setReg w d (operandValue w p + operandValue w q)
  | .sub d p q => setReg w d (operandValue w p - operandValue w q)
  | .half d p => setReg w d (rsh1 (getReg w p))
  | .liftAdd d p k => setReg w d (getReg w d + lift (T k) (getReg w p))
  | .liftSub d p k => setReg w d (getReg w d - lift (T k) (getReg w p))

/-- A microprogram, top to bottom (00_scope.md R11). -/
def runMicro (T : LiftTable) : List MicroStep → Work → Work
  | [], w => w
  | op :: ops, w => runMicro T ops (microStep T w op)

/-- One executed lifting step: its table entry and the operand value it read. -/
structure LiftUse where
  k : Fin 15
  value : Word
deriving DecidableEq, Repr

/-- The lifting step that a micro-step is, if it is one. -/
def microUse (w : Work) : MicroStep → List LiftUse
  | .add _ _ _ => []
  | .sub _ _ _ => []
  | .half _ _ => []
  | .liftAdd _ p k => [⟨k, getReg w p⟩]
  | .liftSub _ p k => [⟨k, getReg w p⟩]

/-- The lifting steps of a microprogram in execution order (41_forward.md R148). -/
def liftUses (T : LiftTable) : List MicroStep → Work → List LiftUse
  | [], _ => []
  | op :: ops, w => microUse w op ++ liftUses T ops (microStep T w op)

end Sys2Proof.Machine
end

