-- ==== Sys2Proof/Config.lean ====
section
/-! DEFINITION. What the platform fixes and what the spec leaves open: constants without a body, of which nothing can be
proved, and the documented input bounds (00_scope.md R7). -/

namespace Sys2Proof.Config

/-- Parameter `LAT` (00_scope.md R7, 70_reset_and_hazards.md R292, R293; U10): how many host moves come before the
completion of the command accepted at the n-th draw. Finite, with no upper bound (log 2). -/
opaque latency : Nat → Nat

/-- The values of the working registers after a kernel has run, at the n-th draw: "unspecified and unobservable"
(10_state.md R23; U8; log 6). -/
opaque freeWork : Nat → Work

/-- Parameter `XF8_BASE` in words: the block's base is a word-aligned host address (20_memory.md R62; U11; log 13). -/
opaque xf8BaseWord : Nat

/-- Parameter `XF8_IRQ_LINE`: the host interrupt input that IRQ drives (60_exceptions.md R257; U12; log 13). -/
opaque xf8IrqLine : Nat

/-- The host byte address of word offset `k`: `XF8_BASE + 4k` (20_memory.md R62). -/
def hostByteAddress (k : Offset) : Nat := 4 * xf8BaseWord + 4 * k.toNat

/-- `SAFE_1D`: the documented input magnitude bound for FDCT8 (00_scope.md R7, D23). -/
def safe1D : Int := 32768

/-- `SAFE_2D`: the documented input magnitude bound for FDCT8X8 (00_scope.md R7, D23). -/
def safe2D : Int := 8192

end Sys2Proof.Config
end

