-- ==== Sys2Proof/Machine/State.lean ====
section
/-! DEFINITION. The state of one GPEG-XF8 instance (10_state.md R20), the host's pending transactions, the reasons a step
can stop, and the state after power-on reset (10_state.md R41). -/

namespace Sys2Proof.Machine

/-- BUF (10_state.md R39): the written words as (word address, word) pairs, addresses strictly rising and below 256. An
address that is not listed is unwritten and holds no value (10_state.md R40; log 3). The unit is the word, the smallest
thing any access moves (20_memory.md R60, R64; log 4). -/
abbrev Memory := List (Nat × Word)

/-- The sequencer's phase, mirrored exactly by STATUS.BUSY (10_state.md R30). -/
inductive Phase where
  | idle
  | busy
deriving DecidableEq, Repr

/-- The sticky bits of STATUS (10_state.md R29). BUSY is `State.phase`. -/
structure Status where
  done : Bool
  ill : Bool
  busyErr : Bool
  ovf : Bool
deriving DecidableEq, Repr

/-- CTRL (10_state.md R31). -/
structure Ctrl where
  ovfChk : Bool
  ie : Bool
deriving DecidableEq, Repr

/-- Which kernel a lifting step belongs to (10_state.md R32 DIR). -/
inductive Dir where
  | fwd
  | inv
deriving DecidableEq, Repr

/-- OVFINFO (10_state.md R32), its ten defined bits. -/
structure OvfInfo where
  valid : Bool
  pass : Bool
  line : BitVec 3
  dir : Bool
  step : BitVec 4
deriving DecidableEq, Repr

/-- One overflow event of a lifting step (41_forward.md R148). -/
structure OverflowEvent where
  step : BitVec 4
  dir : Dir
  line : BitVec 3
  pass : Bool
  value : Word
deriving DecidableEq, Repr

/-- What the outside world can do to the block (log 1). -/
inductive Input where
  /-- A host read of one word (20_memory.md R63, R67). -/
  | read (off : Offset)
  /-- A host write of one word (20_memory.md R63, R67). -/
  | write (off : Offset) (v : Word)
  /-- A host access of `bytes` bytes at a byte address, of less than a word or misaligned, which a platform must not forward
  (20_memory.md R65; log 8). -/
  | subWord (byteAddr bytes : Nat)
  /-- The reset input XF8_RST, applied between host transactions (70_reset_and_hazards.md R280). -/
  | reset
deriving DecidableEq, Repr

/-- The state of one instance (10_state.md R20), and the model's own fields `inputs`, `rdata`, `latLeft`, `draws`. The
constants ID, VERSION and LIFT are definitions (log 12). -/
structure State where
  /-- BUF (10_state.md R39, R40). -/
  buf : Memory
  /-- CMD (10_state.md R28). -/
  cmd : Word
  /-- STATUS, its sticky bits (10_state.md R29). -/
  status : Status
  /-- CTRL (10_state.md R31). -/
  ctrl : Ctrl
  /-- OVFINFO (10_state.md R32). -/
  ovfInfo : OvfInfo
  /-- OVFVAL (10_state.md R33). -/
  ovfVal : Word
  /-- The sequencer's phase and STATUS.BUSY (10_state.md R30). -/
  phase : Phase
  /-- The accepted command word being executed; never read while idle (10_state.md R30; U9). -/
  cur : Word
  /-- CTRL.OVFCHK as it was at acceptance; never read while idle (10_state.md R30; U9). -/
  chk : Bool
  /-- The working registers between kernel runs: a value nothing reads (10_state.md R23; log 6). -/
  work : Work
  /-- Pending host transactions and resets, oldest first (log 1). -/
  inputs : List Input
  /-- What the last host read returned (20_memory.md R63; log 10). -/
  rdata : Option Word
  /-- How many more host moves may come before completion (parameter LAT; log 2). -/
  latLeft : Nat
  /-- How many free values have been drawn (log 2, log 6). -/
  draws : Nat
deriving DecidableEq, Repr

/-- Model-level faults. The hardware has no trap for either (60_exceptions.md R251). -/
inductive Fault where
  /-- Raised by a host read of an unwritten BUF word (10_state.md R40, 20_memory.md R78, U6). Safe: the hardware returns an
  unspecified value and goes on. -/
  | unwrittenHostRead
  /-- Raised by the completion of a command whose read set holds an unwritten BUF word (20_memory.md R78,
  60_exceptions.md R256, U6). Safe: the hardware writes unspecified values and goes on. -/
  | unwrittenCommandRead
deriving DecidableEq, Repr

/-- Refusals: what the model gives no meaning to. -/
inductive Refusal where
  /-- Raised by an arm of `exec` for an instruction that has no meaning yet (none in this model). Safe: it stops. -/
  | notModelled (mnemonic : String)
  /-- Raised by a sub-word or misaligned host access (20_memory.md R65, U13). Safe: it stops. -/
  | subWordAccess
  /-- Raised by the term `rsh _ _ 0`, which no word decodes to (40_rounding_shift.md R121, U3). Safe: it stops, and only in
  states no run reaches. -/
  | shiftCountZero
  /-- Raised by a busy sequencer whose `cur` is no legal word; acceptance never leaves one (60_exceptions.md R255; log 9).
  Safe: it stops, and only in states no run reaches. -/
  | currentIllegal
deriving DecidableEq, Repr

/-- The state after power-on reset (10_state.md R41, 70_reset_and_hazards.md R280). `cur`, `chk` and `work`, which the spec
leaves unspecified, and the model's own fields are DESIGN CHOICE (log 5). -/
def State.reset : State where
  buf := []
  cmd := 0
  status := ⟨false, false, false, false⟩
  ctrl := ⟨false, false⟩
  ovfInfo := ⟨false, false, 0, false, 0⟩
  ovfVal := 0
  phase := .idle
  cur := 0
  chk := false
  work := ⟨0, 0, 0, 0, 0, 0, 0, 0, 0, 0, 0⟩
  inputs := []
  rdata := none
  latLeft := 0
  draws := 0

end Sys2Proof.Machine
end

