-- ==== Sys2Proof/Machine/Flags.lean ====
section
/-! DEFINITION. The bits of STATUS, CTRL and OVFINFO as words, the IRQ level, and the overflow check. The block has no other
flags (10_state.md R25). -/

namespace Sys2Proof.Machine

/-- STATUS as read (10_state.md R29): BUSY, DONE, ILL, BUSYERR, OVF in bits 0..4, reserved bits 0. -/
def statusWord (s : State) : Word :=
  (0#27 : BitVec 27) ++ BitVec.ofBool s.status.ovf ++ BitVec.ofBool s.status.busyErr ++ BitVec.ofBool s.status.ill
    ++ BitVec.ofBool s.status.done ++ BitVec.ofBool (decide (s.phase = .busy))

/-- CTRL as read (10_state.md R31): OVFCHK and IE in bits 0 and 1, reserved bits 0. -/
def ctrlWord (c : Ctrl) : Word := (0#30 : BitVec 30) ++ BitVec.ofBool c.ie ++ BitVec.ofBool c.ovfChk

/-- OVFINFO as read (10_state.md R32): VALID 31, PASS 8, LINE 7:5, DIR 4, STEP 3:0, reserved bits 0. -/
def ovfInfoWord (o : OvfInfo) : Word :=
  BitVec.ofBool o.valid ++ (0#22 : BitVec 22) ++ BitVec.ofBool o.pass ++ o.line ++ BitVec.ofBool o.dir ++ o.step

/-- The IRQ output (10_state.md R38, 60_exceptions.md R257). -/
def irq (s : State) : Bool :=
  s.ctrl.ie && (s.status.done || s.status.ill || s.status.busyErr || s.status.ovf)

/-- A host write of `v` to CTRL (10_state.md R43). -/
def ctrlOfWord (v : Word) : Ctrl := ⟨v.getLsbD 0, v.getLsbD 1⟩

/-- Does the integer lie in int32? (00_scope.md R8) -/
def inInt32 (v : Int) : Bool := decide (-(2 ^ 31) ≤ v) && decide (v ≤ 2 ^ 31 - 1)

/-- The overflow condition of one lifting step, over exact integers (41_forward.md R148). -/
def liftOverflows (c : LiftConst) (v : Word) : Bool :=
  !(inInt32 (v.toInt * (c.m.toNat : Int)) && inInt32 (v.toInt * (c.m.toNat : Int) + (liftOffset c : Int)))

/-- The overflow events of one kernel invocation, in execution order: `j` numbers the lifting steps of the kernel's own order
(41_forward.md R148, 42_inverse.md R184). -/
def overflowEvents (T : LiftTable) (dir : Dir) (line : BitVec 3) (pass : Bool) :
    Nat → List LiftUse → List OverflowEvent
  | _, [] => []
  | j, u :: us =>
    if liftOverflows (T u.k) u.value then
      ⟨BitVec.ofNat 4 j, dir, line, pass, u.value⟩ :: overflowEvents T dir line pass (j + 1) us
    else overflowEvents T dir line pass (j + 1) us

/-- OVFINFO for a captured event (60_exceptions.md R254). -/
def ovfInfoOf (e : OverflowEvent) : OvfInfo := ⟨true, e.pass, e.line, decide (e.dir = .inv), e.step⟩

/-- OVFINFO with no captured event (10_state.md R32 reset value, R42). -/
def ovfInfoClear : OvfInfo := ⟨false, false, 0, false, 0⟩

end Sys2Proof.Machine
end

