-- ==== Sys2Proof/Machine/Forward.lean ====
section
/-! DEFINITION. The forward kernel FDCT: permuted load, micro-steps F1..F34, store (41_forward.md R140, R149, R150, R151). -/

namespace Sys2Proof.Machine

/-- The permuted load (41_forward.md R149). The half registers are written before they are read (10_state.md R23). -/
def forwardLoad (x : Vec8) : Work where
  t0 := x.x0
  t4 := x.x1
  t2 := x.x2
  t6 := x.x3
  t7 := x.x4
  t3 := x.x5
  t5 := x.x6
  t1 := x.x7
  h1 := 0
  h4 := 0
  h6 := 0

/-- The micro-steps F1..F34 (41_forward.md R150). -/
def forwardProgram : List MicroStep :=
  [ .sub .t1 (.reg .t0) (.reg .t1),     -- F1
    .half .h1 .t1,                      -- F2
    .sub .t0 (.reg .t0) (.reg .h1),     -- F3
    .add .t4 (.reg .t4) (.reg .t5),     -- F4
    .half .h4 .t4,                      -- F5
    .sub .t5 (.reg .t5) (.reg .h4),     -- F6
    .sub .t3 (.reg .t2) (.reg .t3),     -- F7
    .sub .t2 (.reg .t2) (.half .t3),    -- F8
    .add .t6 (.reg .t6) (.reg .t7),     -- F9
    .half .h6 .t6,                      -- F10
    .sub .t7 (.reg .h6) (.reg .t7),     -- F11
    .add .t0 (.reg .t0) (.reg .h6),     -- F12
    .sub .t6 (.reg .t0) (.reg .t6),     -- F13
    .sub .t2 (.reg .h4) (.reg .t2),     -- F14
    .sub .t4 (.reg .t2) (.reg .t4),     -- F15
    .liftSub .t0 .t4 0,                 -- F16
    .liftAdd .t4 .t0 1,                 -- F17
    .liftSub .t0 .t4 2,                 -- F18
    .liftSub .t6 .t2 3,                 -- F19
    .liftAdd .t2 .t6 4,                 -- F20
    .liftSub .t6 .t2 5,                 -- F21
    .liftAdd .t3 .t5 6,                 -- F22
    .liftAdd .t5 .t3 7,                 -- F23
    .liftSub .t3 .t5 8,                 -- F24
    .sub .t7 (.half .t5) (.reg .t7),    -- F25
    .sub .t5 (.reg .t5) (.reg .t7),     -- F26
    .sub .t3 (.reg .h1) (.reg .t3),     -- F27
    .sub .t1 (.reg .t1) (.reg .t3),     -- F28
    .liftAdd .t7 .t1 9,                 -- F29
    .liftSub .t1 .t7 10,                -- F30
    .liftAdd .t7 .t1 11,                -- F31
    .liftAdd .t5 .t3 12,                -- F32
    .liftSub .t3 .t5 13,                -- F33
    .liftAdd .t5 .t3 14 ]               -- F34

/-- The store `y[k] <- t_k` (41_forward.md R151). -/
def forwardStore (w : Work) : Vec8 := ⟨w.t0, w.t1, w.t2, w.t3, w.t4, w.t5, w.t6, w.t7⟩

/-- `FDCT : int32^8 -> int32^8` over a lifting table (41_forward.md R153). -/
def fdct (T : LiftTable) (x : Vec8) : Vec8 := forwardStore (runMicro T forwardProgram (forwardLoad x))

/-- The 15 lifting steps of FDCT in execution order (41_forward.md R148, R150). -/
def fdctUses (T : LiftTable) (x : Vec8) : List LiftUse := liftUses T forwardProgram (forwardLoad x)

end Sys2Proof.Machine
end

