-- ==== Sys2Proof/Machine/Inverse.lean ====
section
/-! DEFINITION. The inverse kernel IDCT: load, micro-steps I1..I34, permuted store (42_inverse.md R180 to R183). -/

namespace Sys2Proof.Machine

/-- The load `t_k <- y[k]` (42_inverse.md R181). The half registers are written before they are read (10_state.md R23). -/
def inverseLoad (y : Vec8) : Work where
  t0 := y.x0
  t1 := y.x1
  t2 := y.x2
  t3 := y.x3
  t4 := y.x4
  t5 := y.x5
  t6 := y.x6
  t7 := y.x7
  h1 := 0
  h4 := 0
  h6 := 0

/-- The micro-steps I1..I34 (42_inverse.md R182). -/
def inverseProgram : List MicroStep :=
  [ .liftSub .t5 .t3 14,                -- I1
    .liftAdd .t3 .t5 13,                -- I2
    .liftSub .t5 .t3 12,                -- I3
    .liftSub .t7 .t1 11,                -- I4
    .liftAdd .t1 .t7 10,                -- I5
    .liftSub .t7 .t1 9,                 -- I6
    .add .t1 (.reg .t1) (.reg .t3),     -- I7
    .half .h1 .t1,                      -- I8
    .sub .t3 (.reg .h1) (.reg .t3),     -- I9
    .add .t5 (.reg .t5) (.reg .t7),     -- I10
    .sub .t7 (.half .t5) (.reg .t7),    -- I11
    .liftAdd .t3 .t5 8,                 -- I12
    .liftSub .t5 .t3 7,                 -- I13
    .liftSub .t3 .t5 6,                 -- I14
    .liftAdd .t6 .t2 5,                 -- I15
    .liftSub .t2 .t6 4,                 -- I16
    .liftAdd .t6 .t2 3,                 -- I17
    .liftAdd .t0 .t4 2,                 -- I18
    .liftSub .t4 .t0 1,                 -- I19
    .liftAdd .t0 .t4 0,                 -- I20
    .sub .t4 (.reg .t2) (.reg .t4),     -- I21
    .half .h4 .t4,                      -- I22
    .sub .t2 (.reg .h4) (.reg .t2),     -- I23
    .sub .t6 (.reg .t0) (.reg .t6),     -- I24
    .half .h6 .t6,                      -- I25
    .sub .t0 (.reg .t0) (.reg .h6),     -- I26
    .sub .t7 (.reg .h6) (.reg .t7),     -- I27
    .sub .t6 (.reg .t6) (.reg .t7),     -- I28
    .add .t2 (.reg .t2) (.half .t3),    -- I29
    .sub .t3 (.reg .t2) (.reg .t3),     -- I30
    .add .t5 (.reg .t5) (.reg .h4),     -- I31
    .sub .t4 (.reg .t4) (.reg .t5),     -- I32
    .add .t0 (.reg .t0) (.reg .h1),     -- I33
    .sub .t1 (.reg .t0) (.reg .t1) ]    -- I34

/-- The permuted store (42_inverse.md R183). -/
def inverseStore (w : Work) : Vec8 := ⟨w.t0, w.t4, w.t2, w.t6, w.t7, w.t3, w.t5, w.t1⟩

/-- `IDCT : int32^8 -> int32^8` over a lifting table (42_inverse.md R186). -/
def idct (T : LiftTable) (y : Vec8) : Vec8 := inverseStore (runMicro T inverseProgram (inverseLoad y))

/-- The 15 lifting steps of IDCT in execution order; the j-th uses LIFT[14 - j] (42_inverse.md R184). -/
def idctUses (T : LiftTable) (y : Vec8) : List LiftUse := liftUses T inverseProgram (inverseLoad y)

end Sys2Proof.Machine
end

