-- ==== Sys2Proof/Machine/Operands.lean ====
section
/-! DEFINITION. BUF words, the strided addressing of the kernels, and the read and write sets of the commands
(20_memory.md R61, R66, R68, R69). -/

namespace Sys2Proof.Machine

/-- The word listed at key `k`, if any. -/
def Memory.lookup : Memory → Nat → Option Word
  | [], _ => none
  | (k', v) :: rest, k => if k' = k then some v else lookup rest k

/-- Puts `v` at key `k`, keeping rising keys rising. -/
def Memory.insertAt : Memory → Nat → Word → Memory
  | [], k, v => [(k, v)]
  | (k', v') :: rest, k, v =>
    if k < k' then (k, v) :: (k', v') :: rest
    else if k = k' then (k, v) :: rest
    else (k', v') :: insertAt rest k v

/-- `MemRead(a, 4)` (20_memory.md R61): the word, or none where it is unwritten (10_state.md R40). -/
def Memory.read (m : Memory) (a : Addr) : Option Word := m.lookup a.toNat

/-- `MemWrite(a, 4, v)` (20_memory.md R61): the word is then written. -/
def Memory.write (m : Memory) (a : Addr) (v : Word) : Memory := m.insertAt a.toNat v

/-- Makes a word unwritten (70_reset_and_hazards.md R281). -/
def Memory.erase (m : Memory) (a : Addr) : Memory := m.filter (fun c => c.1 != a.toNat)

/-- Applies writes in order; a later write to the same word wins (60_exceptions.md R256). -/
def Memory.writeAll (m : Memory) (ws : List (Addr × Word)) : Memory :=
  ws.foldl (fun m w => m.write w.1 w.2) m

/-- Makes every word of a list unwritten (70_reset_and_hazards.md R281). -/
def Memory.eraseAll (m : Memory) (as : List Addr) : Memory := as.foldl Memory.erase m

/-- Keys rise strictly from `lo` and stay below 256. -/
def Memory.sortedFrom (lo : Nat) : Memory → Bool
  | [] => true
  | (k, _) :: rest => decide (lo ≤ k) && decide (k < 256) && sortedFrom (k + 1) rest

/-- The canonical form of BUF: word addresses strictly rising and inside the 256 words (10_state.md R39). An unlisted word
reads as no value, so no entry can equal it. -/
def Memory.wf (m : Memory) : Bool := m.sortedFrom 0

/-- Is the word written? (10_state.md R40) -/
def Memory.isWritten (m : Memory) (a : Addr) : Bool := (m.read a).isSome

/-- Eight word addresses at a fixed distance: the strided or the contiguous side of a kernel (20_memory.md R68). -/
structure Strided where
  base : Addr
  stride : Addr
deriving DecidableEq, Repr

/-- `addr(base, i, stride) = (base + i * stride) mod 256` (20_memory.md R68). -/
def Strided.addr (r : Strided) (i : Fin 8) : Addr := r.base + BitVec.ofNat 8 i.val * r.stride

/-- The eight addresses in increasing index. -/
def Strided.addrs (r : Strided) : List Addr :=
  [r.addr 0, r.addr 1, r.addr 2, r.addr 3, r.addr 4, r.addr 5, r.addr 6, r.addr 7]

/-- The contiguous side of a kernel: `addr(base, i, 1)` (20_memory.md R68). -/
def contiguous (base : Addr) : Strided := ⟨base, 1⟩

/-- The 64-word region `X .. X + 63 mod 256` (43_composition.md R218), in increasing offset. -/
def region (base : Addr) : List Addr := (List.range 64).map (fun k => base + BitVec.ofNat 8 k)

/-- Word `i` of a vector. -/
def vecGet (x : Vec8) (i : Fin 8) : Word :=
  match i with
  | 0 => x.x0
  | 1 => x.x1
  | 2 => x.x2
  | 3 => x.x3
  | 4 => x.x4
  | 5 => x.x5
  | 6 => x.x6
  | 7 => x.x7

/-- A kernel's eight reads (41_forward.md R152, 42_inverse.md R185); none when one of the words is unwritten. -/
def Memory.loadVec (m : Memory) (r : Strided) : Option Vec8 := do
  let x0 ← m.read (r.addr 0)
  let x1 ← m.read (r.addr 1)
  let x2 ← m.read (r.addr 2)
  let x3 ← m.read (r.addr 3)
  let x4 ← m.read (r.addr 4)
  let x5 ← m.read (r.addr 5)
  let x6 ← m.read (r.addr 6)
  let x7 ← m.read (r.addr 7)
  return ⟨x0, x1, x2, x3, x4, x5, x6, x7⟩

/-- A kernel's eight writes, in increasing index (41_forward.md R152, 42_inverse.md R185). -/
def vecWrites (r : Strided) (y : Vec8) : List (Addr × Word) :=
  [(r.addr 0, y.x0), (r.addr 1, y.x1), (r.addr 2, y.x2), (r.addr 3, y.x3),
   (r.addr 4, y.x4), (r.addr 5, y.x5), (r.addr 6, y.x6), (r.addr 7, y.x7)]

/-- One line of a command: a complete kernel invocation, its strided input and output, and the pass and line numbers that
its overflow events record (43_composition.md R210, R221). -/
structure Line where
  pass : Bool
  line : BitVec 3
  rd : Strided
  wr : Strided
deriving DecidableEq, Repr

/-- The line numbers of a pass, in order (43_composition.md R219). -/
def lineNumbers : List (BitVec 3) := [0, 1, 2, 3, 4, 5, 6, 7]

/-- The offset `8*n` of line n's row, or of its eight contiguous words (43_composition.md R211, R212). -/
def rowOffset (n : BitVec 3) : Addr := BitVec.ofNat 8 (8 * n.toNat)

/-- Row n of a block: stride 1 from `base + 8*n` (43_composition.md R211, R216). -/
def row (base : Addr) (n : BitVec 3) : Strided := ⟨base + rowOffset n, 1⟩

/-- Column n of a block: stride 8 from `base + n` (43_composition.md R212, R215). -/
def column (base : Addr) (n : BitVec 3) : Strided := ⟨base + BitVec.ofNat 8 n.toNat, 8⟩

/-- FDCT8 is one forward line: strided input, contiguous output, line 0 of pass 0 (41_forward.md R152). -/
def fdct8Lines (src dst stride : Addr) : List Line := [⟨false, 0, ⟨src, stride⟩, contiguous dst⟩]

/-- IDCT8 is one inverse line: contiguous input, strided output, line 0 of pass 0 (42_inverse.md R185). -/
def idct8Lines (src dst stride : Addr) : List Line := [⟨false, 0, contiguous src, ⟨dst, stride⟩⟩]

/-- FDCT8X8: rows of src to rows of tmp, then columns of tmp to rows of dst (43_composition.md R211, R212). -/
def fdct8x8Lines (src dst tmp : Addr) : List Line :=
  lineNumbers.map (fun r => ⟨false, r, row src r, row tmp r⟩)
    ++ lineNumbers.map (fun c => ⟨true, c, column tmp c, row dst c⟩)

/-- IDCT8X8: rows of src to columns of tmp, then rows of tmp to rows of dst (43_composition.md R215, R216). -/
def idct8x8Lines (src dst tmp : Addr) : List Line :=
  lineNumbers.map (fun c => ⟨false, c, row src c, column tmp c⟩)
    ++ lineNumbers.map (fun r => ⟨true, r, row tmp r, row dst r⟩)

/-- The words a command takes from BUF as it was at acceptance (20_memory.md R66). A 2-D command's reads of its own tmp words
are not among them (60_exceptions.md R256). -/
def readSet : Instr → List Addr
  | .nop => []
  | .rsh src _ _ => [src]
  | .fdct8 src _ stride => (Strided.mk src stride).addrs
  | .idct8 src _ _ => (contiguous src).addrs
  | .fdct8x8 src _ _ => region src
  | .idct8x8 src _ _ => region src

/-- The words a command writes (20_memory.md R66); for a 2-D command the 64 tmp words are among them. -/
def writeSet : Instr → List Addr
  | .nop => []
  | .rsh _ dst _ => [dst]
  | .fdct8 _ dst _ => (contiguous dst).addrs
  | .idct8 _ dst stride => (Strided.mk dst stride).addrs
  | .fdct8x8 _ dst tmp => region tmp ++ region dst
  | .idct8x8 _ dst tmp => region tmp ++ region dst

end Sys2Proof.Machine
end

