-- ==== Sys2Proof/Machine/Ops.lean ====
section
/-! DEFINITION. The shared operations: raising an event and returning from one, accepting and completing a command, running
the lines of a kernel command, and reset (60_exceptions.md R250 to R256, R261; 70_reset_and_hazards.md R280, R281). -/

namespace Sys2Proof.Machine

/-- The events of 60_exceptions.md R251, with what each records. -/
inductive Event where
  | done
  | ill (w : Word)
  | busyErr
  | ovf (e : OverflowEvent)
deriving DecidableEq, Repr

/-- `raise E(info)` (60_exceptions.md R250): set the sticky bit and record the info. A capture happens only while OVF is 0
(R254). No event changes the flow of anything (R260). -/
def raise (e : Event) (s : State) : State :=
  match e with
  | .done => { s with status := { s.status with done := true } }
  | .ill w => { s with cmd := w, status := { s.status with ill := true } }
  | .busyErr => { s with status := { s.status with busyErr := true } }
  | .ovf e =>
    if s.status.ovf then s
    else { s with status := { s.status with ovf := true }, ovfInfo := ovfInfoOf e, ovfVal := e.value }

/-- The return from events: a host write of `v` to STATUS, write-1-to-clear (60_exceptions.md R261, 10_state.md R42). -/
def clearEvents (v : Word) (s : State) : State :=
  { s with
    status :=
      ⟨s.status.done && !v.getLsbD 1, s.status.ill && !v.getLsbD 2, s.status.busyErr && !v.getLsbD 3,
        s.status.ovf && !v.getLsbD 4⟩
    ovfInfo := if v.getLsbD 4 then ovfInfoClear else s.ovfInfo
    ovfVal := if v.getLsbD 4 then 0 else s.ovfVal }

/-- Acceptance of a CMD write while BUSY = 0 (60_exceptions.md R255, R252). The latency of a legal command is drawn here
(log 2). -/
def acceptCommand (w : Word) (s : State) : State :=
  let s := { s with cmd := w, status := { s.status with done := false } }
  match decode w with
  | .error _ => raise (.ill w) s
  | .ok _ =>
    { s with cur := w, chk := s.ctrl.ovfChk, phase := .busy, latLeft := Config.latency s.draws, draws := s.draws + 1 }

/-- A CMD write (10_state.md R44): acceptance while idle, BUSYERR and nothing else while busy (60_exceptions.md R253). -/
def issueCommand (w : Word) (s : State) : State :=
  match s.phase with
  | .idle => acceptCommand w s
  | .busy => raise .busyErr s

/-- `OverflowCapture(events)` where the snapshot `chk` asks for it (60_exceptions.md R254, R256). -/
def overflowCapture (evs : List OverflowEvent) (s : State) : State :=
  match s.chk, evs with
  | true, e :: _ => raise (.ovf e) s
  | _, _ => s

/-- Completion (60_exceptions.md R256), given the BUF that the command's writes leave and its overflow events. -/
def complete (m : Memory) (evs : List OverflowEvent) (s : State) : State :=
  let s := raise .done (overflowCapture evs { s with buf := m })
  { s with phase := .idle }

/-- The working registers after a kernel has run: a fresh free value (10_state.md R23; log 6). -/
def leaveWork (s : State) : State := { s with work := Config.freeWork s.draws, draws := s.draws + 1 }

/-- The kernel of a direction (43_composition.md R210), with the machine's own table (10_state.md R35). -/
def kernel : Dir → Vec8 → Vec8
  | .fwd => fdct liftTable
  | .inv => idct liftTable

/-- The lifting steps of a direction's kernel, in its own order. -/
def kernelUses : Dir → Vec8 → List LiftUse
  | .fwd => fdctUses liftTable
  | .inv => idctUses liftTable

/-- One line: all eight reads, the kernel, then all eight writes (20_memory.md R76; 41_forward.md R152; 42_inverse.md R185).
None where an input word is unwritten. -/
def runLine (d : Dir) (l : Line) (m : Memory) : Option (Memory × List OverflowEvent) :=
  match m.loadVec l.rd with
  | none => none
  | some x => some (m.writeAll (vecWrites l.wr (kernel d x)), overflowEvents liftTable d l.line l.pass 0 (kernelUses d x))

/-- Lines one after another, each complete before the next reads; the events in execution order
(43_composition.md R219; 41_forward.md R148). -/
def runLines (d : Dir) : List Line → Memory → Option (Memory × List OverflowEvent)
  | [], m => some (m, [])
  | l :: ls, m =>
    match runLine d l m with
    | none => none
    | some (m1, ev1) =>
      match runLines d ls m1 with
      | none => none
      | some (m2, ev2) => some (m2, ev1 ++ ev2)

/-- A kernel command from its lines (60_exceptions.md R256): the fault of 20_memory.md R78 when its read set holds an unwritten
word, else completion. -/
def execLines (d : Dir) (reads : List Addr) (ls : List Line) (s : State) : Host.Outcome State Fault Refusal :=
  if reads.all s.buf.isWritten then
    match runLines d ls s.buf with
    | none => .fault .unwrittenCommandRead
    | some (m, evs) => .next (complete m evs (leaveWork s))
  else .fault .unwrittenCommandRead

/-- The words that a reset leaves unwritten: the write set of the command it aborts (70_reset_and_hazards.md R281). -/
def abortedWords (s : State) : List Addr :=
  match s.phase, decode s.cur with
  | .busy, .ok i => writeSet i
  | _, _ => []

/-- A reset after power-on (70_reset_and_hazards.md R280, R281, R282). What the spec leaves unspecified takes its value of
`State.reset` (log 5). -/
def applyReset (s : State) : State :=
  { State.reset with buf := s.buf.eraseAll (abortedWords s), inputs := s.inputs, draws := s.draws }

end Sys2Proof.Machine
end

