-- ==== Sys2Proof/Machine/Composition.lean ====
section
/-! DEFINITION. The 2-D commands FDCT8X8 and IDCT8X8 (43_composition.md R213, R217). -/

namespace Sys2Proof.Machine

/-- FDCT8X8: row pass, then column pass (43_composition.md R213, R211, R212). -/
def execFdct8x8 (src dst tmp : Addr) (s : State) : Host.Outcome State Fault Refusal :=
  execLines .fwd (readSet (.fdct8x8 src dst tmp)) (fdct8x8Lines src dst tmp) s

/-- IDCT8X8: inverse column pass, then inverse row pass (43_composition.md R217, R215, R216). -/
def execIdct8x8 (src dst tmp : Addr) (s : State) : Host.Outcome State Fault Refusal :=
  execLines .inv (readSet (.idct8x8 src dst tmp)) (idct8x8Lines src dst tmp) s

end Sys2Proof.Machine
end

