-- ==== Sys2Proof/Machine/Control.lean ====
section
/-! DEFINITION. The NOP command (44_control.md R240). -/

namespace Sys2Proof.Machine

/-- NOP: no BUF access, no datapath step; completes (44_control.md R240). -/
def execNop (s : State) : Host.Outcome State Fault Refusal := .next (complete s.buf [] s)

end Sys2Proof.Machine
end

