-- ==== Sys2Proof/Machine/Rounding.lean ====
section
/-! DEFINITION. The RSH command (40_rounding_shift.md R126). -/

namespace Sys2Proof.Machine

/-- RSH: the unbiased rounding shift of one BUF word (40_rounding_shift.md R126). `b = 0` is outside the operator's domain, and
no word decodes to it (R121; log 9). -/
def execRsh (src dst : Addr) (b : BitVec 5) (s : State) : Host.Outcome State Fault Refusal :=
  if b = 0 then .refused .shiftCountZero
  else
    match s.buf.read src with
    | none => .fault .unwrittenCommandRead
    | some a => .next (complete (s.buf.write dst (rshift a b.toNat)) [] s)

end Sys2Proof.Machine
end

