-- ==== Sys2Proof/Machine/Transform.lean ====
section
/-! DEFINITION. The 1-D commands FDCT8 and IDCT8 (41_forward.md R152, 42_inverse.md R185). -/

namespace Sys2Proof.Machine

/-- FDCT8: forward 8-point transform (41_forward.md R152). -/
def execFdct8 (src dst stride : Addr) (s : State) : Host.Outcome State Fault Refusal :=
  execLines .fwd (readSet (.fdct8 src dst stride)) (fdct8Lines src dst stride) s

/-- IDCT8: inverse 8-point transform (42_inverse.md R185). -/
def execIdct8 (src dst stride : Addr) (s : State) : Host.Outcome State Fault Refusal :=
  execLines .inv (readSet (.idct8 src dst stride)) (idct8Lines src dst stride) s

end Sys2Proof.Machine
end

