-- ==== Sys2Proof/Machine/Dispatch.lean ====
section
/-! DEFINITION. `exec`: the completion of an accepted command, one arm per command (60_exceptions.md R256 `Exec`). -/

namespace Sys2Proof.Machine

-- The step that completes a command; acceptance is the host's CMD write (60_exceptions.md R255).
def exec (i : Instr) (s : State) : Host.Outcome State Fault Refusal :=
  match i with
  | .nop => Sys2Proof.Machine.execNop s
  | .rsh src dst b => Sys2Proof.Machine.execRsh src dst b s
  | .fdct8 src dst stride => Sys2Proof.Machine.execFdct8 src dst stride s
  | .idct8 src dst stride => Sys2Proof.Machine.execIdct8 src dst stride s
  | .fdct8x8 src dst tmp => Sys2Proof.Machine.execFdct8x8 src dst tmp s
  | .idct8x8 src dst tmp => Sys2Proof.Machine.execIdct8x8 src dst tmp s

end Sys2Proof.Machine
end

