-- ==== Sys2Proof/Machine/Port.lean ====
section
/-! DEFINITION. The host port: reads and writes of registers and of BUF, and which agent moves next
(10_state.md R26 to R45; 20_memory.md R62, R63, R70; 70_reset_and_hazards.md R293). -/

namespace Sys2Proof.Machine

/-- ID reads the constant 0x47504547 (10_state.md R34). -/
def idWord : Word := 0x47504547#32

/-- VERSION reads the constant 0x00010000 (10_state.md R34). -/
def versionWord : Word := 0x00010000#32

/-- LIFT[k] as read: M in bits 15:0, S in bits 20:16, bits 31:21 zero (10_state.md R35). -/
def liftWord (c : LiftConst) : Word := (0#11 : BitVec 11) ++ c.s ++ c.m

/-- Is the offset in BUF, at 0x100 and above? (20_memory.md R62) -/
def isBufOffset (off : Offset) : Bool := off.getLsbD 8

/-- The BUF word at offset 0x100 + a (20_memory.md R62). -/
def bufAddr (off : Offset) : Addr := off.setWidth 8

/-- The LIFT register file (10_state.md R26: offsets 0x010 to 0x01E), 0 beyond it. -/
def readLift (k : Nat) : Word := if h : k < 15 then liftWord (liftTable ⟨k, h⟩) else 0

/-- The value of the register at an offset below 0x100; reserved offsets read 0 (10_state.md R26, R36). -/
def readRegister (off : Offset) (s : State) : Word :=
  if off = 0x000 then s.cmd
  else if off = 0x001 then statusWord s
  else if off = 0x002 then ctrlWord s.ctrl
  else if off = 0x003 then ovfInfoWord s.ovfInfo
  else if off = 0x004 then s.ovfVal
  else if off = 0x005 then idWord
  else if off = 0x006 then versionWord
  else if 0x010 ≤ off.toNat then readLift (off.toNat - 0x010)
  else 0

/-- A host write to a register offset. OVFINFO, OVFVAL, ID, VERSION, LIFT and the reserved offsets ignore it
(10_state.md R36, R42 to R45). -/
def writeRegister (off : Offset) (v : Word) (s : State) : State :=
  if off = 0x000 then issueCommand v s
  else if off = 0x001 then clearEvents v s
  else if off = 0x002 then { s with ctrl := ctrlOfWord v }
  else s

/-- A host read that is not held: it has no side effect but the returned data (10_state.md R27, 20_memory.md R63, R78). -/
def hostRead (off : Offset) (s : State) : Host.Outcome State Fault Refusal :=
  if isBufOffset off then
    match s.buf.read (bufAddr off) with
    | some v => .next { s with rdata := some v }
    | none => .fault .unwrittenHostRead
  else .next { s with rdata := some (readRegister off s) }

/-- A host write that is not held (20_memory.md R63). -/
def hostWrite (off : Offset) (v : Word) (s : State) : Host.Outcome State Fault Refusal :=
  if isBufOffset off then .next { s with buf := s.buf.write (bufAddr off) v }
  else .next (writeRegister off v s)

/-- One input taking effect. -/
def applyInput (x : Input) (s : State) : Host.Outcome State Fault Refusal :=
  match x with
  | .read off => hostRead off s
  | .write off v => hostWrite off v s
  | .subWord _ _ => .refused .subWordAccess
  | .reset => .next (applyReset s)

/-- Is the input a transaction that the port holds while BUSY = 1? (20_memory.md R70) -/
def isHeld : Input → Bool
  | .read off => isBufOffset off
  | .write off _ => isBufOffset off
  | .subWord _ _ => false
  | .reset => false

/-- Who moves next. -/
inductive Turn where
  /-- Nothing moves: the block is idle and the host makes no transaction. -/
  | rest
  /-- The sequencer takes its completion step. -/
  | sequencer
  /-- An input takes effect, in the given state. -/
  | input (x : Input) (s : State)
deriving DecidableEq, Repr

/-- May the host's side move before the sequencer? An idle block leaves every move to it; while BUSY = 1 it may move as long as
`latLeft` allows (70_reset_and_hazards.md R293; log 2). -/
def hostMayMove (s : State) : Bool :=
  match s.phase with
  | .idle => true
  | .busy => decide (0 < s.latLeft)

/-- `s` with its next input taken off, `rest` being what is left; while BUSY = 1 that uses up one host move. -/
def takeInput (s : State) (rest : List Input) : State :=
  match s.phase with
  | .idle => { s with inputs := rest }
  | .busy => { s with inputs := rest, latLeft := s.latLeft - 1 }

/-- The next input that can take effect, and what is left after it. While BUSY = 1 a BUF access is held; a reset that comes while
one is held takes effect, and the held access is abandoned (20_memory.md R70; 70_reset_and_hazards.md R281; log 14). -/
def nextInput (s : State) : Option (Input × List Input) :=
  match s.inputs with
  | [] => none
  | x :: rest =>
    if s.phase = .busy ∧ isHeld x then
      match rest with
      | .reset :: rest' => some (.reset, rest')
      | _ => none
    else some (x, rest)

/-- Which agent moves next (70_reset_and_hazards.md R293; log 2): the host's side while it may move and has an input that is not
held; else the sequencer while BUSY = 1; else nobody. -/
def nextTurn (s : State) : Turn :=
  match hostMayMove s, nextInput s with
  | true, some (x, rest) => .input x (takeInput s rest)
  | _, _ =>
    match s.phase with
    | .idle => .rest
    | .busy => .sequencer

/-- The command that the sequencer is to complete (10_state.md R30). -/
def currentCommand (s : State) : Except DecodeError Instr := decode s.cur

/-- The state in which the very next step runs the command of a word: the state after the host's CMD write of it has been
accepted, with no further host move before completion (60_exceptions.md R255; log 1). For a word that is no command, the
state in which the next step is the CMD write of it. -/
def placeCommand (w : Word) (s : State) : State :=
  if isLegal w then { acceptCommand w s with latLeft := 0 }
  else { s with phase := .idle, inputs := .write 0 w :: s.inputs }

end Sys2Proof.Machine
end

