-- ==== Sys2Proof/Machine/Step.lean ====
section
/-! DEFINITION. One step of the model: a host transaction, a reset, or the completion of the running command
(00_scope.md R4; 20_memory.md R71). -/

namespace Sys2Proof.Machine

/-- One step. With nothing to do, an idle block keeps all its state (60_exceptions.md R266). -/
def step (s : State) : Host.Outcome State Fault Refusal :=
  match nextTurn s with
  | .rest => .next s
  | .input x s' => applyInput x s'
  | .sequencer =>
    match currentCommand s with
    | .ok i => exec i s
    | .error _ => .refused .currentIllegal

/-- `s` with the command word placed where the next step takes its command from: accepted, as the host's CMD write leaves it
(log 1). -/
def State.withFetchWord (s : State) (nbits w : Nat) : State := placeCommand (BitVec.ofNat 32 (w % 2 ^ nbits)) s

end Sys2Proof.Machine
end

