-- ==== Sys2Proof/Safety.lean ====
section
/-! DEFINITION. The terms in which claims about runs are stated: the invariant of the machine, what a completion leaves, what
it reports of overflow, and the 2-D transforms of a block (43_composition.md R218). -/

namespace Sys2Proof.Machine

/-- The invariant of every run: BUF is in canonical form (10_state.md R39); a busy sequencer runs the word in CMD, which is legal
(10_state.md R30, 60_exceptions.md R255); OVFINFO is valid exactly while OVF is set, is 0 with OVFVAL otherwise, and never holds
step 15 (10_state.md R32, R33, R42; 60_exceptions.md R254). -/
abbrev MachineInv (s : State) : Prop :=
  s.buf.wf = true ∧
  (s.phase = .busy → s.cur = s.cmd ∧ isLegal s.cur = true) ∧
  (s.status.ovf = true → s.ovfInfo.valid = true) ∧
  (s.status.ovf = false → s.ovfInfo = ovfInfoClear ∧ s.ovfVal = 0) ∧
  s.ovfInfo.step ≠ 15

/-- What every completion leaves (60_exceptions.md R256): DONE set, the block idle, and every register that no command writes as
it was. That `cur` and `chk` keep their values is the model's choice (log 5). BUF, the overflow report and the working registers
are said beside it. -/
def Completed (s t : State) : Prop :=
  t.phase = .idle ∧ t.status.done = true ∧ t.status.ill = s.status.ill ∧ t.status.busyErr = s.status.busyErr ∧
  t.cmd = s.cmd ∧ t.ctrl = s.ctrl ∧ t.cur = s.cur ∧ t.chk = s.chk ∧
  t.inputs = s.inputs ∧ t.rdata = s.rdata ∧ t.latLeft = s.latLeft

/-- STATUS.OVF, OVFINFO and OVFVAL are as they were. -/
def OverflowKept (s t : State) : Prop :=
  t.status.ovf = s.status.ovf ∧ t.ovfInfo = s.ovfInfo ∧ t.ovfVal = s.ovfVal

/-- What the completion of a command with overflow events `evs` reports (60_exceptions.md R254, R256): with the snapshot `chk` set
and at least one event, OVF is set, and the first event is captured unless OVF was set before; else nothing changes. -/
def OverflowReport (evs : List OverflowEvent) (s t : State) : Prop :=
  match evs with
  | [] => OverflowKept s t
  | e :: _ =>
    if s.chk then
      t.status.ovf = true ∧
      (if s.status.ovf then t.ovfInfo = s.ovfInfo ∧ t.ovfVal = s.ovfVal
        else t.ovfInfo = ovfInfoOf e ∧ t.ovfVal = e.value)
    else OverflowKept s t

/-- A host transaction that a well-behaved platform makes: not a sub-word access, and no reset (20_memory.md R65). -/
def isTransaction : Input → Bool
  | .read _ => true
  | .write _ _ => true
  | .subWord _ _ => false
  | .reset => false

/-- The magnitude of a word's int32 value is at most `bound`. -/
def within (bound : Int) (v : Word) : Prop := -bound ≤ v.toInt ∧ v.toInt ≤ bound

/-- The overflow condition of a lifting step with constant `(M, O, S)`, `O = 2^(S-1)`, and operand `v`: the exact integer `v*M` or
`v*M + O` lies outside int32 (41_forward.md R148). -/
abbrev LeavesInt32 (c : LiftConst) (v : Word) : Prop :=
  ¬ (-(2 ^ 31) ≤ v.toInt * c.m.toNat ∧ v.toInt * c.m.toNat ≤ 2 ^ 31 - 1 ∧
     -(2 ^ 31) ≤ v.toInt * c.m.toNat + 2 ^ (c.s.toNat - 1) ∧ v.toInt * c.m.toNat + 2 ^ (c.s.toNat - 1) ≤ 2 ^ 31 - 1)

/-- An 8 x 8 block of words, by line and by index inside the line. -/
abbrev Block := Fin 8 → Fin 8 → Word

/-- The vector with the words `f 0 .. f 7`. -/
def vecOf (f : Fin 8 → Word) : Vec8 := ⟨f 0, f 1, f 2, f 3, f 4, f 5, f 6, f 7⟩

/-- The address of word `i` of line `n` of a block: `base + 8n + i` mod 256 (43_composition.md R211). -/
def blockAddr (base : Addr) (n i : Fin 8) : Addr := base + BitVec.ofNat 8 (8 * n.val + i.val)

/-- FDCT of every line of a block: the row pass (43_composition.md R211). -/
def forwardLinesOf (T : LiftTable) (x : Block) : Block := fun r k => vecGet (fdct T (vecOf (x r))) k

/-- IDCT of every line of a block: the inverse column pass (43_composition.md R215). -/
def inverseLinesOf (T : LiftTable) (y : Block) : Block := fun c i => vecGet (idct T (vecOf (y c))) i

/-- The block read by columns. -/
def columnsOf (x : Block) : Block := fun c r => x r c

/-- `F2D` (43_composition.md R211, R212, R218), in the layout of R214: line c, index v. -/
def f2d (T : LiftTable) (x : Block) : Block := forwardLinesOf T (columnsOf (forwardLinesOf T x))

/-- `I2D` (43_composition.md R215, R216, R218), from the layout of R214 to rows. -/
def i2d (T : LiftTable) (y : Block) : Block := inverseLinesOf T (columnsOf (inverseLinesOf T y))

/-- The overflow events of a pass over the lines of a block, in execution order (43_composition.md R221). -/
def passEvents (d : Dir) (pass : Bool) (x : Block) : List OverflowEvent :=
  (List.finRange 8).flatMap fun n =>
    overflowEvents liftTable d (BitVec.ofNat 3 n.val) pass 0 (kernelUses d (vecOf (x n)))

/-- The overflow events of FDCT8X8 on a block (43_composition.md R213). -/
def f2dEvents (x : Block) : List OverflowEvent :=
  passEvents .fwd false x ++ passEvents .fwd true (columnsOf (forwardLinesOf liftTable x))

/-- The overflow events of IDCT8X8 on a block (43_composition.md R217). -/
def i2dEvents (y : Block) : List OverflowEvent :=
  passEvents .inv false y ++ passEvents .inv true (columnsOf (inverseLinesOf liftTable y))

/-- One line of a 2-D command, from the words `m` to the words `m'` (43_composition.md R211): it reads the vector `x` at its eight
input addresses and writes the kernel's eight outputs, and every other word is as it was. -/
def LineRun (f : Vec8 → Vec8) (rd wr : Fin 8 → Addr) (x : Fin 8 → Word) (m m' : Addr → Option Word) : Prop :=
  (∀ i, m (rd i) = some (x i)) ∧ (∀ i, m' (wr i) = some (vecGet (f (vecOf x)) i)) ∧
  ∀ a, (∀ i, a ≠ wr i) → m' a = m a

/-- The eight lines of a pass one after another, line n taking the words `m n` to `m (n + 1)` and reading the vector `x n`
(43_composition.md R219). -/
def PassRun (f : Vec8 → Vec8) (rd wr : Fin 8 → Fin 8 → Addr) (x : Block) (m : Nat → Addr → Option Word) : Prop :=
  ∀ n : Fin 8, LineRun f (rd n) (wr n) (x n) (m n.val) (m (n.val + 1))

/-- Two regions of 64 words have no word in common (43_composition.md R218). -/
def disjointRegions (x y : Addr) : Prop := ∀ a, a ∈ region x → a ∉ region y

end Sys2Proof.Machine
end

