-- ==== Sys2Proof/Certificates/Slice0/Obligations.lean ====
section
/-! DEFINITION. The statements for the provers, by the rule of the spec that each formalises. -/

open Sys2Proof Sys2Proof.Machine

/-! ### Encoding (30_encoding.md) -/

/-- 30_encoding.md R100: the example commands have their words, which decode to them, and the example illegal words do not decode. -/
def Obligations.ExampleWordsDecode : Prop :=
  (∀ p ∈ [(Instr.nop, 0x00000000#32), (.rsh 0x00 0x01 1, 0x10000101#32), (.rsh 0x04 0x05 31, 0x1004051F#32),
      (.fdct8 0x00 0x40 1, 0x20004001#32), (.fdct8 0x10 0x80 8, 0x20108008#32), (.idct8 0x40 0x00 1, 0x30400001#32),
      (.fdct8x8 0x00 0x80 0x40, 0x40008040#32), (.idct8x8 0x80 0xC0 0x40, 0x5080C040#32)],
    encode p.1 = p.2 ∧ decode p.2 = .ok p.1) ∧
  isLegal 0x00000001#32 = false ∧ isLegal 0x10000100#32 = false ∧ isLegal 0x10000120#32 = false ∧
  isLegal 0x21000000#32 = false ∧ isLegal 0x60000000#32 = false ∧ isLegal 0xFFFFFFFF#32 = false

/-- 30_encoding.md R97: every well-formed command is the decoding of its word. -/
def Obligations.DecodeOfEncodeIsIdentity : Prop :=
  ∀ i : Instr, i.WellFormed → decode (encode i) = .ok i

/-- 30_encoding.md R97: a word that decodes is the word of the term it decodes to, which is well-formed; so no two words decode to
one term. -/
def Obligations.LegalWordIsItsTermsWord : Prop :=
  (∀ w i, decode w = .ok i → encode i = w ∧ i.WellFormed) ∧
  (∀ w w' i, decode w = .ok i → decode w' = .ok i → w = w')

/-- 30_encoding.md R95, R91: which words each mnemonic has, by match, mask and RSH's extra condition, and where each operand stands;
every other word is illegal. -/
def Obligations.LegalWordsAreTheTableRows : Prop :=
  ∀ w : Word,
    (decode w = .ok .nop ↔ w &&& 0xFFFFFFFF#32 = 0x00000000#32) ∧
    (∀ src dst b, decode w = .ok (.rsh src dst b) ↔
      w &&& 0xFF0000E0#32 = 0x10000000#32 ∧ w.extractLsb' 0 5 ≠ 0 ∧
      src = w.extractLsb' 16 8 ∧ dst = w.extractLsb' 8 8 ∧ b = w.extractLsb' 0 5) ∧
    (∀ src dst stride, decode w = .ok (.fdct8 src dst stride) ↔ w &&& 0xFF000000#32 = 0x20000000#32 ∧
      src = w.extractLsb' 16 8 ∧ dst = w.extractLsb' 8 8 ∧ stride = w.extractLsb' 0 8) ∧
    (∀ src dst stride, decode w = .ok (.idct8 src dst stride) ↔ w &&& 0xFF000000#32 = 0x30000000#32 ∧
      src = w.extractLsb' 16 8 ∧ dst = w.extractLsb' 8 8 ∧ stride = w.extractLsb' 0 8) ∧
    (∀ src dst tmp, decode w = .ok (.fdct8x8 src dst tmp) ↔ w &&& 0xFF000000#32 = 0x40000000#32 ∧
      src = w.extractLsb' 16 8 ∧ dst = w.extractLsb' 8 8 ∧ tmp = w.extractLsb' 0 8) ∧
    (∀ src dst tmp, decode w = .ok (.idct8x8 src dst tmp) ↔ w &&& 0xFF000000#32 = 0x50000000#32 ∧
      src = w.extractLsb' 16 8 ∧ dst = w.extractLsb' 8 8 ∧ tmp = w.extractLsb' 0 8) ∧
    (isLegal w = true ↔
      w = 0 ∨ (w &&& 0xFF0000E0#32 = 0x10000000#32 ∧ w.extractLsb' 0 5 ≠ 0) ∨
      w &&& 0xFF000000#32 = 0x20000000#32 ∨ w &&& 0xFF000000#32 = 0x30000000#32 ∨
      w &&& 0xFF000000#32 = 0x40000000#32 ∨ w &&& 0xFF000000#32 = 0x50000000#32)

/-! ### Arithmetic (40_rounding_shift.md, 41_forward.md) -/

/-- 40_rounding_shift.md R120: the value of RSHIFT, over integers: the top b bits of `a` are added with a 32-bit wrap and the sum
is floored to `2^b`. -/
def Obligations.RshiftValue : Prop :=
  ∀ (a : Word) (b : Nat), 1 ≤ b → b ≤ 31 →
    (rshift a b).toInt = (BitVec.ofInt 32 (((a.toNat / 2 ^ (32 - b) : Nat) : Int) + a.toInt)).toInt / 2 ^ b

/-- 40_rounding_shift.md R122: inside the band, RSHIFT rounds toward zero. -/
def Obligations.RshiftRoundsTowardZero : Prop :=
  ∀ (a : Word) (b : Nat), 1 ≤ b → b ≤ 31 → -(2 ^ (32 - b)) ≤ a.toInt → a.toInt < 2 ^ (32 - b) →
    (rshift a b).toInt = Int.tdiv a.toInt (2 ^ b)

/-- 40_rounding_shift.md R123: halving rounds toward zero on all of int32; its addend is the sign bit, and its sum never wraps; the
two examples. -/
def Obligations.HalvingRoundsTowardZero : Prop :=
  (∀ a : Word, (rsh1 a).toInt = Int.tdiv a.toInt 2 ∧ lsr a 31 = (if a.toInt < 0 then 1 else 0) ∧
    (lsr a 31 + a).toInt = (lsr a 31).toInt + a.toInt) ∧
  rsh1 (BitVec.ofInt 32 (-2147483648)) = BitVec.ofInt 32 (-1073741824) ∧
  rsh1 (BitVec.ofInt 32 2147483647) = BitVec.ofInt 32 1073741823

/-- 40_rounding_shift.md R124: above the band the sum wraps exactly when it reaches 2^31, and the result is then negative; the
three examples. -/
def Obligations.RshiftWrapsAboveTheBand : Prop :=
  (∀ (a : Word) (b : Nat), 2 ≤ b → b ≤ 31 → 2 ^ (32 - b) ≤ a.toInt →
    ((lsr a (32 - b) + a).toInt ≠ (lsr a (32 - b)).toNat + a.toInt ↔ 2 ^ 31 ≤ (lsr a (32 - b)).toNat + a.toInt) ∧
    (2 ^ 31 ≤ (lsr a (32 - b)).toNat + a.toInt → (rshift a b).toInt < 0)) ∧
  (rshift 0x7FFFFFFF#32 2).toInt = -536870912 ∧ (rshift 0x55555556#32 31).toInt = -1 ∧
  (rshift 0x7FFFFFFF#32 31).toInt = -1

/-- 40_rounding_shift.md R127: inside the band of R122, RSHIFT is odd and non-decreasing, and it is 0 on magnitudes below 2^b. (The
rule's last sentence names no band. Outside the band it does not hold: R124's RSHIFT(0x55555556, 31) is -1.) -/
def Obligations.RshiftOddAndMonotone : Prop :=
  ∀ b : Nat, 1 ≤ b → b ≤ 31 →
    (∀ a : Word, -(2 ^ (32 - b)) < a.toInt → a.toInt < 2 ^ (32 - b) → rshift (-a) b = -(rshift a b)) ∧
    (∀ a a' : Word, -(2 ^ (32 - b)) ≤ a.toInt → a.toInt ≤ a'.toInt → a'.toInt < 2 ^ (32 - b) →
      (rshift a b).toInt ≤ (rshift a' b).toInt) ∧
    (∀ a : Word, -(2 ^ (32 - b)) ≤ a.toInt → a.toInt < 2 ^ (32 - b) → -(2 ^ b) < a.toInt → a.toInt < 2 ^ b →
      rshift a b = 0)

/-- 41_forward.md R147: LIFT of any constant with S in 1..31, over integers: the product plus `2^(S-1)`, reduced to int32, floored
to `2^S`; where the sum lies in int32, no reduction. -/
def Obligations.LiftValue : Prop :=
  ∀ (c : LiftConst) (v : Word), c.s ≠ 0 →
    (lift c v).toInt =
      (BitVec.ofInt 32 (v.toInt * (c.m.toNat : Int) + 2 ^ (c.s.toNat - 1))).toInt / 2 ^ c.s.toNat ∧
    (-(2 ^ 31) ≤ v.toInt * (c.m.toNat : Int) + 2 ^ (c.s.toNat - 1) →
      v.toInt * (c.m.toNat : Int) + 2 ^ (c.s.toNat - 1) < 2 ^ 31 →
      (lift c v).toInt = (v.toInt * (c.m.toNat : Int) + 2 ^ (c.s.toNat - 1)) / 2 ^ c.s.toNat)

/-- 90_conflicts.md C1: an S = 13 constant gives the result of the S = 14 constant of twice the multiplier where that one does not
overflow. -/
def Obligations.LiftThirteenBitsAsFourteen : Prop :=
  ∀ (m : BitVec 16) (v : Word), m.toNat < 2 ^ 15 → liftOverflows ⟨m + m, 14⟩ v = false →
    lift ⟨m, 13⟩ v = lift ⟨m + m, 14⟩ v

/-! ### The kernels (41_forward.md, 42_inverse.md, 43_composition.md) -/

/-- 42_inverse.md R187: IDCT and FDCT undo each other on all of int32^8, for every table of lifting constants. -/
def Obligations.KernelsUndoEachOther : Prop :=
  ∀ (T : LiftTable) (x : Vec8), idct T (fdct T x) = x ∧ fdct T (idct T x) = x

/-- 42_inverse.md R188: on FDCT's output, IDCT's j-th lifting step reads the operand, and uses the constant, of FDCT's step 14 - j;
so it overflows exactly when that one did. -/
def Obligations.InverseMirrorsLiftingSteps : Prop :=
  ∀ (T : LiftTable) (x : Vec8),
    (fdctUses T x).length = 15 ∧ idctUses T (fdct T x) = (fdctUses T x).reverse ∧
    ∀ j, j < 15 →
      ((idctUses T (fdct T x))[j]?.map fun u => liftOverflows (T u.k) u.value) =
        ((fdctUses T x)[14 - j]?.map fun u => liftOverflows (T u.k) u.value)

/-- 42_inverse.md R184: the j-th lifting step of the inverse kernel uses LIFT[14 - j], and that of the forward kernel LIFT[j]. -/
def Obligations.LiftingStepNumbering : Prop :=
  ∀ (T : LiftTable) (x : Vec8),
    (fdctUses T x).map LiftUse.k = List.finRange 15 ∧ (idctUses T x).map LiftUse.k = (List.finRange 15).reverse

/-- 41_forward.md R159: no lifting step of FDCT overflows on inputs of magnitude at most 37532. -/
def Obligations.ForwardSafeRange : Prop :=
  ∀ x : Vec8, (∀ i, within 37532 (vecGet x i)) →
    ∀ u ∈ fdctUses liftTable x, liftOverflows (liftTable u.k) u.value = false

/-- 43_composition.md R223: no lifting step of FDCT8X8 overflows on blocks of magnitude at most 13264, nor any lifting step of
IDCT8X8 on its output. -/
def Obligations.BlockSafeRange : Prop :=
  ∀ x : Block, (∀ r c, within 13264 (x r c)) → f2dEvents x = [] ∧ i2dEvents (f2d liftTable x) = []

/-- 43_composition.md R218: the 2-D round trip, for every block and every table of lifting constants. -/
def Obligations.BlockRoundTrip : Prop :=
  ∀ (T : LiftTable) (x : Block), i2d T (f2d T x) = x

/-! ### Reset (10_state.md R41, 70_reset_and_hazards.md) -/

/-- 10_state.md R41: the state after power-on, as the host port shows it, with the phase, IRQ and every BUF word unwritten. -/
def Obligations.PowerOnState : Prop :=
  readRegister 0x000 State.reset = 0 ∧ readRegister 0x001 State.reset = 0 ∧ readRegister 0x002 State.reset = 0 ∧
  readRegister 0x003 State.reset = 0 ∧ readRegister 0x004 State.reset = 0 ∧
  readRegister 0x005 State.reset = 0x47504547#32 ∧ readRegister 0x006 State.reset = 0x00010000#32 ∧
  State.reset.phase = .idle ∧ irq State.reset = false ∧ ∀ a, State.reset.buf.read a = none

/-- The state after power-on meets the invariant that every step keeps. -/
def Obligations.ResetMeetsInvariant : Prop := MachineInv State.reset

/-- 70_reset_and_hazards.md R280, R281, R282: a reset puts the registers to their reset values and the block to IDLE, and IRQ goes low.
It makes the write set of a running command unwritten and keeps every other BUF word, written or not. The constants are unaffected. -/
def Obligations.ResetEffect : Prop :=
  ∀ s : State,
    ∃ t, applyInput .reset s = .next t ∧
      t.cmd = 0 ∧ statusWord t = 0 ∧ ctrlWord t.ctrl = 0 ∧ ovfInfoWord t.ovfInfo = 0 ∧ t.ovfVal = 0 ∧
      t.phase = .idle ∧ irq t = false ∧
      (s.phase = .idle → ∀ a, t.buf.read a = s.buf.read a) ∧
      (s.phase = .busy → ∀ i, decode s.cur = .ok i →
        ∀ a, (a ∈ writeSet i → t.buf.read a = none) ∧ (a ∉ writeSet i → t.buf.read a = s.buf.read a)) ∧
      (∀ off : Offset, 0x005 ≤ off.toNat → off.toNat < 0x100 → readRegister off t = readRegister off s)

/-- 70_reset_and_hazards.md R281: a reset that comes while a BUF access is held aborts the command and abandons the access. That the
reset then stands behind the held access among `inputs`, and comes before completion as long as `latLeft` allows, is the model's
choice (log 2, log 14). -/
def Obligations.ResetAbandonsHeldAccess : Prop :=
  ∀ (s : State) (x : Input) (rest : List Input) (i : Instr),
    s.phase = .busy → 0 < s.latLeft → s.inputs = x :: .reset :: rest → isHeld x = true → decode s.cur = .ok i →
    ∃ t, step s = .next t ∧ t.inputs = rest ∧ t.phase = .idle ∧ t.rdata = none ∧ statusWord t = 0 ∧
      ∀ a, (a ∈ writeSet i → t.buf.read a = none) ∧ (a ∉ writeSet i → t.buf.read a = s.buf.read a)

/-! ### The host port (10_state.md, 20_memory.md) -/

/-- 10_state.md R26, R27, R35, R36: a host read of a register offset, idle or busy, returns the register's value (at offset 0x010 + k,
M and S of LIFT[k]; 0 at a reserved offset) and changes nothing else. -/
def Obligations.ReadOfRegister : Prop :=
  ∀ (s : State) (off : Offset), off.toNat < 0x100 →
    ∃ v, applyInput (.read off) s = .next { s with rdata := some v } ∧
      (off = 0x000 → v = s.cmd) ∧ (off = 0x001 → v = statusWord s) ∧ (off = 0x002 → v = ctrlWord s.ctrl) ∧
      (off = 0x003 → v = ovfInfoWord s.ovfInfo) ∧ (off = 0x004 → v = s.ovfVal) ∧
      (off = 0x005 → v = 0x47504547#32) ∧ (off = 0x006 → v = 0x00010000#32) ∧
      (∀ k : Fin 15, off.toNat = 0x010 + k.val →
        v = BitVec.ofNat 32 ((liftTable k).m.toNat + (liftTable k).s.toNat * 2 ^ 16)) ∧
      (0x007 ≤ off.toNat → off.toNat ≤ 0x00F → v = 0) ∧ (0x01F ≤ off.toNat → v = 0)

/-- 10_state.md R29, R31, R32: the bits of STATUS, CTRL and OVFINFO as read; reserved bits read 0. 60_exceptions.md R254: the bits of
OVFINFO for a captured event. -/
def Obligations.RegisterLayouts : Prop :=
  (∀ s : State,
    ((statusWord s).getLsbD 0 = decide (s.phase = .busy) ∧ (statusWord s).getLsbD 1 = s.status.done ∧
      (statusWord s).getLsbD 2 = s.status.ill ∧ (statusWord s).getLsbD 3 = s.status.busyErr ∧
      (statusWord s).getLsbD 4 = s.status.ovf ∧ (statusWord s).extractLsb' 5 27 = 0) ∧
    ((ctrlWord s.ctrl).getLsbD 0 = s.ctrl.ovfChk ∧ (ctrlWord s.ctrl).getLsbD 1 = s.ctrl.ie ∧
      (ctrlWord s.ctrl).extractLsb' 2 30 = 0) ∧
    ((ovfInfoWord s.ovfInfo).extractLsb' 0 4 = s.ovfInfo.step ∧ (ovfInfoWord s.ovfInfo).getLsbD 4 = s.ovfInfo.dir ∧
      (ovfInfoWord s.ovfInfo).extractLsb' 5 3 = s.ovfInfo.line ∧ (ovfInfoWord s.ovfInfo).getLsbD 8 = s.ovfInfo.pass ∧
      (ovfInfoWord s.ovfInfo).extractLsb' 9 22 = 0 ∧ (ovfInfoWord s.ovfInfo).getLsbD 31 = s.ovfInfo.valid)) ∧
  ∀ e : OverflowEvent,
    (ovfInfoWord (ovfInfoOf e)).getLsbD 31 = true ∧ (ovfInfoWord (ovfInfoOf e)).extractLsb' 9 22 = 0 ∧
    (ovfInfoWord (ovfInfoOf e)).getLsbD 8 = e.pass ∧ (ovfInfoWord (ovfInfoOf e)).extractLsb' 5 3 = e.line ∧
    ((ovfInfoWord (ovfInfoOf e)).getLsbD 4 = true ↔ e.dir = .inv) ∧ (ovfInfoWord (ovfInfoOf e)).extractLsb' 0 4 = e.step

/-- 41_forward.md R146, 10_state.md R35: the table's M, O and S, and LIFT[0..14] as the port reads them, M in bits 15:0 and S in bits
20:16. -/
def Obligations.LiftRegistersHoldTheTable : Prop :=
  let table : List (Nat × Nat × Nat) :=
    [(13573, 16384, 15), (11585, 8192, 14), (13573, 16384, 15), (21895, 16384, 15), (15137, 8192, 14), (21895, 16384, 15),
     (19195, 16384, 15), (11585, 8192, 14), (7489, 4096, 13), (3227, 16384, 15), (6393, 16384, 15), (3227, 16384, 15),
     (2485, 4096, 13), (18205, 16384, 15), (2485, 4096, 13)]
  (List.finRange 15).map (fun k => ((liftTable k).m.toNat, liftOffset (liftTable k), (liftTable k).s.toNat)) = table ∧
  ∀ s : State, (List.range 15).map (fun k => readRegister (BitVec.ofNat 9 (0x010 + k)) s) =
    table.map (fun e => BitVec.ofNat 32 (e.1 + e.2.2 * 2 ^ 16))

/-- 20_memory.md R63: a host read at 0x100 + a, while the block is idle, of a written BUF word returns it and changes nothing else. -/
def Obligations.ReadOfBuf : Prop :=
  ∀ (s : State) (a : Addr) (v : Word), s.phase = .idle → s.buf.read a = some v →
    applyInput (.read (BitVec.ofNat 9 (0x100 + a.toNat))) s = .next { s with rdata := some v }

/-- 20_memory.md R63: a host write at 0x100 + a, while the block is idle, makes BUF[a] written with that value, and changes nothing
else. -/
def Obligations.WriteOfBuf : Prop :=
  ∀ (s : State) (a : Addr) (v : Word), s.phase = .idle →
    ∃ m, applyInput (.write (BitVec.ofNat 9 (0x100 + a.toNat)) v) s = .next { s with buf := m } ∧ m.read a = some v ∧
      ∀ a', a' ≠ a → m.read a' = s.buf.read a'

/-- What the next step is, in the model's own terms (log 1, log 2): an idle block takes the next input, and keeps its state when there
is none; a busy block whose `latLeft` allows it takes the next input unless that is a held BUF access. -/
def Obligations.StepTakesTheNextInput : Prop :=
  ∀ s : State,
    (s.phase = .idle → s.inputs = [] → step s = .next s) ∧
    (∀ x rest, s.inputs = x :: rest →
      (s.phase = .idle → step s = applyInput x { s with inputs := rest }) ∧
      (s.phase = .busy → 0 < s.latLeft → isHeld x = false →
        step s = applyInput x { s with inputs := rest, latLeft := s.latLeft - 1 }))

/-- 20_memory.md R70: while BUSY = 1 a host access to BUF has no host step. The next step is then the completion of the running
command, unless the platform resets the block (the model's choice, log 2), and the access is still pending after it. -/
def Obligations.BufAccessIsHeldWhileBusy : Prop :=
  ∀ (s : State) (x : Input) (rest : List Input) (i : Instr),
    s.phase = .busy → s.inputs = x :: rest → isHeld x = true → rest.head? ≠ some .reset → decode s.cur = .ok i →
    step s = exec i s ∧ ∀ t, step s = .next t → t.phase = .idle ∧ t.inputs = x :: rest

/-- 10_state.md R42: a host write to STATUS, idle or busy, clears exactly the sticky bits written with 1, and OVFINFO and OVFVAL with
OVF; BUSY and the reserved bits of the word are ignored, and nothing else changes. -/
def Obligations.StatusWriteOneToClear : Prop :=
  ∀ (s : State) (v : Word),
    ∃ t, applyInput (.write 0x001 v) s = .next t ∧
      t.status.done = (s.status.done && !v.getLsbD 1) ∧ t.status.ill = (s.status.ill && !v.getLsbD 2) ∧
      t.status.busyErr = (s.status.busyErr && !v.getLsbD 3) ∧ t.status.ovf = (s.status.ovf && !v.getLsbD 4) ∧
      (v.getLsbD 4 = true → ovfInfoWord t.ovfInfo = 0 ∧ t.ovfVal = 0) ∧
      (v.getLsbD 4 = false → t.ovfInfo = s.ovfInfo ∧ t.ovfVal = s.ovfVal) ∧
      { t with status := s.status, ovfInfo := s.ovfInfo, ovfVal := s.ovfVal } = s

/-- 10_state.md R43: a host write to CTRL, idle or busy, sets OVFCHK and IE from bits 0 and 1 and nothing else. It does not reach the
snapshot of a running command; the new OVFCHK is what the next accepted command takes. IRQ follows the new IE at once. -/
def Obligations.ControlWrite : Prop :=
  ∀ (s : State) (v : Word),
    ∃ t, applyInput (.write 0x002 v) s = .next t ∧ t.ctrl.ovfChk = v.getLsbD 0 ∧ t.ctrl.ie = v.getLsbD 1 ∧
      { t with ctrl := s.ctrl } = s ∧ t.chk = s.chk ∧
      irq t = (v.getLsbD 1 && (s.status.done || s.status.ill || s.status.busyErr || s.status.ovf)) ∧
      (s.phase = .idle → ∀ w, isLegal w = true → ∃ u, applyInput (.write 0x000 w) t = .next u ∧ u.chk = v.getLsbD 0)

/-- 10_state.md R45, R36: host writes to OVFINFO, OVFVAL, ID, VERSION, LIFT and the reserved offsets have no effect. -/
def Obligations.ReadOnlyWritesAreIgnored : Prop :=
  ∀ (s : State) (off : Offset) (v : Word), 0x003 ≤ off.toNat → off.toNat < 0x100 → applyInput (.write off v) s = .next s

/-- 20_memory.md R65: a sub-word or misaligned host access gets no meaning. -/
def Obligations.SubWordAccessIsRefused : Prop :=
  ∀ (s : State) (addr bytes : Nat), applyInput (.subWord addr bytes) s = .refused .subWordAccess

/-! ### Commands and events (60_exceptions.md) -/

/-- 60_exceptions.md R255, 10_state.md R28, R30: a host write of a legal word to CMD while idle stores it, clears DONE, copies the word
and OVFCHK to the sequencer and sets BUSY. Nothing else changes but the model's own draw of a latency (log 2); that the working
registers, whose value R23 leaves unspecified, keep theirs is the model's choice too (log 6). -/
def Obligations.LegalCommandIsAccepted : Prop :=
  ∀ (s : State) (w : Word), s.phase = .idle → isLegal w = true →
    ∃ t, applyInput (.write 0x000 w) s = .next t ∧
      t.cmd = w ∧ t.status = { s.status with done := false } ∧ t.cur = w ∧ t.chk = s.ctrl.ovfChk ∧ t.phase = .busy ∧
      t.buf = s.buf ∧ t.ctrl = s.ctrl ∧ t.ovfInfo = s.ovfInfo ∧ t.ovfVal = s.ovfVal ∧ t.work = s.work ∧
      t.inputs = s.inputs ∧ t.rdata = s.rdata

/-- 60_exceptions.md R252: a host write of an illegal word to CMD while idle stores it, clears DONE, sets ILL, and changes nothing
else; BUSY stays 0. -/
def Obligations.IllegalWordSetsIll : Prop :=
  ∀ (s : State) (w : Word), s.phase = .idle → isLegal w = false →
    applyInput (.write 0x000 w) s = .next { s with cmd := w, status := { s.status with done := false, ill := true } }

/-- 60_exceptions.md R253: a host write to CMD while BUSY = 1 sets BUSYERR and changes nothing else; the word is lost. -/
def Obligations.BusyWriteSetsBusyErr : Prop :=
  ∀ (s : State) (w : Word), s.phase = .busy →
    applyInput (.write 0x000 w) s = .next { s with status := { s.status with busyErr := true } }

/-- 10_state.md R38: IRQ is high exactly when CTRL.IE is 1 and one of the four source bits of STATUS is, as the port's words show
them; it is a function of CTRL and STATUS alone. -/
def Obligations.IrqLevel : Prop :=
  (∀ s : State, irq s = true ↔ (ctrlWord s.ctrl).getLsbD 1 = true ∧ statusWord s &&& 0x0000001E#32 ≠ 0) ∧
  ∀ s t : State, s.ctrl = t.ctrl → s.status = t.status → irq s = irq t

/-- 60_exceptions.md R262, 10_state.md R29: a sticky bit of STATUS goes from 1 to 0 only by a host write to STATUS with a 1 at it, by
reset, or, for DONE, by a CMD write while idle. The step's input is the next one, or a reset behind a held access. -/
def Obligations.StickyBitsStay : Prop :=
  ∀ s t : State, step s = .next t →
    (s.status.done = true → t.status.done = false →
      ∃ x rest, nextInput s = some (x, rest) ∧
        (x = .reset ∨ (∃ v, x = .write 0x001 v ∧ v.getLsbD 1 = true) ∨ (s.phase = .idle ∧ ∃ w, x = .write 0x000 w))) ∧
    (s.status.ill = true → t.status.ill = false →
      ∃ x rest, nextInput s = some (x, rest) ∧ (x = .reset ∨ ∃ v, x = .write 0x001 v ∧ v.getLsbD 2 = true)) ∧
    (s.status.busyErr = true → t.status.busyErr = false →
      ∃ x rest, nextInput s = some (x, rest) ∧ (x = .reset ∨ ∃ v, x = .write 0x001 v ∧ v.getLsbD 3 = true)) ∧
    (s.status.ovf = true → t.status.ovf = false →
      ∃ x rest, nextInput s = some (x, rest) ∧ (x = .reset ∨ ∃ v, x = .write 0x001 v ∧ v.getLsbD 4 = true))

/-- 60_exceptions.md R255, 20_memory.md R74: as long as a command runs, no step changes BUF, the command, or the OVFCHK snapshot. -/
def Obligations.RunningCommandIsUndisturbed : Prop :=
  ∀ s t : State, s.phase = .busy → step s = .next t → t.phase = .busy →
    t.buf = s.buf ∧ t.cur = s.cur ∧ t.chk = s.chk ∧ t.cmd = s.cmd

/-- 60_exceptions.md R269, 20_memory.md R72: BUF changes only by a host write of a BUF word while idle, by the completion of a
command, or by a reset of a running command. -/
def Obligations.OnlyThreeStepsChangeBuf : Prop :=
  ∀ s t : State, step s = .next t → t.buf ≠ s.buf →
    (s.phase = .idle ∧ ∃ off v rest, s.inputs = .write off v :: rest ∧ isBufOffset off = true) ∨
    (s.phase = .busy ∧ t.phase = .idle ∧ ((∃ i, decode s.cur = .ok i ∧ exec i s = .next t) ∨
      ∃ rest, nextInput s = some (.reset, rest)))

/-- A step of a busy sequencer with no host move before it runs the decoded command; and the command of a well-formed term, placed
with `withFetchWord`, is what the next step runs, in the state its acceptance leaves (log 1, log 2: the model's own terms). -/
def Obligations.StepRunsTheCurrentCommand : Prop :=
  (∀ (s : State) (i : Instr), s.phase = .busy → decode s.cur = .ok i → (s.latLeft = 0 ∨ s.inputs = []) →
    step s = exec i s) ∧
  (∀ (s : State) (i : Instr), i.WellFormed →
    step (s.withFetchWord 32 (encode i).toNat) = exec i { acceptCommand (encode i) s with latLeft := 0 })

/-- 70_reset_and_hazards.md R293: with no reset and no sub-word access among the inputs, an accepted command comes to its completion
step after finitely many host transactions, with the BUF, the command and the snapshot it was accepted with. That `latLeft` bounds
their number, and that completion comes when no input is left, is the model's choice (log 2): the rule gives no bound. -/
def Obligations.AcceptedCommandReachesCompletion : Prop :=
  ∀ (s : State) (i : Instr), s.phase = .busy → decode s.cur = .ok i → (∀ x ∈ s.inputs, isTransaction x = true) →
    ∃ k u, k ≤ s.latLeft ∧ Host.Core.run Sys2Proof.core k s = .next u ∧ u.phase = .busy ∧ u.cur = s.cur ∧
      u.chk = s.chk ∧ u.buf = s.buf ∧ step u = exec i u

/-- Every step from a state of the invariant keeps the invariant. -/
def Obligations.StepKeepsInvariant : Prop :=
  ∀ s t : State, MachineInv s → step s = .next t → MachineInv t

/-! ### What the commands do -/

/-- 44_control.md R240, 60_exceptions.md R256: NOP completes from every state: DONE is set, BUSY cleared, and nothing else changes. That
`cur`, `chk` and the working registers, which the spec leaves unspecified after completion, keep their values is the model's choice
(log 5, log 6). -/
def Obligations.NopCompletes : Prop :=
  ∀ s : State, exec .nop s = .next { s with status := { s.status with done := true }, phase := .idle }

/-- 40_rounding_shift.md R126: RSH of a written word completes: BUF[dst] holds RSHIFT of the word read, every other word is as it was;
OVF, OVFINFO and OVFVAL are as they were. That the working registers, whose value R23 leaves unspecified after completion, and `cur` and
`chk` keep their values is the model's choice (log 6, log 5). -/
def Obligations.RshCompletes : Prop :=
  ∀ (s : State) (src dst : Addr) (b : BitVec 5) (a : Word), b ≠ 0 → s.buf.read src = some a →
    ∃ t, exec (.rsh src dst b) s = .next t ∧
      t.buf.read dst = some (rshift a b.toNat) ∧ (∀ x, x ≠ dst → t.buf.read x = s.buf.read x) ∧
      Completed s t ∧ OverflowKept s t ∧ t.work = s.work

/-- 41_forward.md R152, R148, 60_exceptions.md R254: FDCT8 with its eight input words written completes: the eight words from dst hold
FDCT of the words read at src with the stride, every other word is as it was, and the first overflow event is reported.
`cur` and `chk` are kept by the model's choice (log 5). -/
def Obligations.Fdct8Completes : Prop :=
  ∀ (s : State) (src dst stride : Addr) (x : Vec8),
    (∀ i : Fin 8, s.buf.read (src + BitVec.ofNat 8 i.val * stride) = some (vecGet x i)) →
    ∃ t, exec (.fdct8 src dst stride) s = .next t ∧
      (∀ k : Fin 8, t.buf.read (dst + BitVec.ofNat 8 k.val) = some (vecGet (fdct liftTable x) k)) ∧
      (∀ a, (∀ k : Fin 8, a ≠ dst + BitVec.ofNat 8 k.val) → t.buf.read a = s.buf.read a) ∧
      Completed s t ∧ OverflowReport (overflowEvents liftTable .fwd 0 false 0 (fdctUses liftTable x)) s t

/-- 42_inverse.md R185, 41_forward.md R148, 60_exceptions.md R254: IDCT8 with its eight input words written completes: the word at
`dst + i * stride` holds sample i unless a later index has the same address, every other word is as it was, and the first overflow
event is reported. `cur` and `chk` are kept by the model's choice (log 5). -/
def Obligations.Idct8Completes : Prop :=
  ∀ (s : State) (src dst stride : Addr) (y : Vec8),
    (∀ k : Fin 8, s.buf.read (src + BitVec.ofNat 8 k.val) = some (vecGet y k)) →
    ∃ t, exec (.idct8 src dst stride) s = .next t ∧
      (∀ i : Fin 8, (∀ j : Fin 8, i < j → BitVec.ofNat 8 j.val * stride ≠ BitVec.ofNat 8 i.val * stride) →
        t.buf.read (dst + BitVec.ofNat 8 i.val * stride) = some (vecGet (idct liftTable y) i)) ∧
      (∀ a, (∀ i : Fin 8, a ≠ dst + BitVec.ofNat 8 i.val * stride) → t.buf.read a = s.buf.read a) ∧
      Completed s t ∧ OverflowReport (overflowEvents liftTable .inv 0 false 0 (idctUses liftTable y)) s t

/-- 43_composition.md R213, R211, R212, R214, R218: FDCT8X8 on a written block, with [tmp] and [dst] disjoint and [src] and [tmp] disjoint
or the same: dst holds F2D of the block in the layout of R214, tmp the row pass, every other word is as it was, and the first overflow
event is reported. `Fdct8x8RunsLineByLine` is about every other overlap. `cur` and `chk` are kept by the model's choice (log 5). -/
def Obligations.Fdct8x8LeavesTransform : Prop :=
  ∀ (s : State) (src dst tmp : Addr) (x : Block),
    (∀ r c, s.buf.read (blockAddr src r c) = some (x r c)) →
    disjointRegions tmp dst → (disjointRegions src tmp ∨ src = tmp) →
    ∃ t, exec (.fdct8x8 src dst tmp) s = .next t ∧
      (∀ c v, t.buf.read (blockAddr dst c v) = some (f2d liftTable x c v)) ∧
      (∀ r k, t.buf.read (blockAddr tmp r k) = some (forwardLinesOf liftTable x r k)) ∧
      (∀ a, a ∉ region dst → a ∉ region tmp → t.buf.read a = s.buf.read a) ∧
      Completed s t ∧ OverflowReport (f2dEvents x) s t

/-- 43_composition.md R217, R215, R216, R218: IDCT8X8 on a written coefficient block, with [src] and [tmp] disjoint and [tmp] and [dst]
disjoint or the same: dst holds I2D of the block, every other word outside tmp is as it was, and the first overflow event is reported.
`Idct8x8RunsLineByLine` is about every other overlap. `cur` and `chk` are kept by the model's choice (log 5). -/
def Obligations.Idct8x8LeavesTransform : Prop :=
  ∀ (s : State) (src dst tmp : Addr) (y : Block),
    (∀ c v, s.buf.read (blockAddr src c v) = some (y c v)) →
    disjointRegions src tmp → (disjointRegions tmp dst ∨ dst = tmp) →
    ∃ t, exec (.idct8x8 src dst tmp) s = .next t ∧
      (∀ r i, t.buf.read (blockAddr dst r i) = some (i2d liftTable y r i)) ∧
      (∀ a, a ∉ region dst → a ∉ region tmp → t.buf.read a = s.buf.read a) ∧
      Completed s t ∧ OverflowReport (i2dEvents y) s t

/-- 60_exceptions.md R256, 20_memory.md R66, R76: every well-formed command whose read set is written completes, whatever its operands
overlap; the registers that no command writes are as they were (`cur` and `chk` by the model's choice, log 5), and every word of its
write set is then written. -/
def Obligations.CommandCompletesWhenReadSetIsWritten : Prop :=
  ∀ (i : Instr) (s : State), i.WellFormed → (∀ a ∈ readSet i, s.buf.isWritten a = true) →
    ∃ t, exec i s = .next t ∧ Completed s t ∧ ∀ a ∈ writeSet i, t.buf.isWritten a = true

/-- 20_memory.md R78: a well-formed command whose read set holds an unwritten word is a fault of the model, and so is a host read of an
unwritten word. -/
def Obligations.UnwrittenReadFaults : Prop :=
  (∀ (i : Instr) (s : State), i.WellFormed → (∃ a ∈ readSet i, s.buf.read a = none) →
    exec i s = .fault .unwrittenCommandRead) ∧
  (∀ (s : State) (a : Addr), s.buf.read a = none →
    applyInput (.read (BitVec.ofNat 9 (0x100 + a.toNat))) s = .fault .unwrittenHostRead)

/-- 20_memory.md R66, 60_exceptions.md R256: the frame of all six commands. Outside its write set a command leaves every BUF word as it
was; it leaves CMD, CTRL, ILL, BUSYERR and the port as they were; it sets DONE; without the snapshot `chk` it leaves OVF, OVFINFO and
OVFVAL; NOP and RSH leave those in any case. That `cur` and `chk` keep their values is the model's choice (log 5), and so is that NOP
and RSH leave the working registers and draw no free value (log 6): the spec leaves both unspecified after completion. -/
def Obligations.CommandFrame : Prop :=
  ∀ (i : Instr) (s t : State), exec i s = .next t →
    (∀ a, a ∉ writeSet i → t.buf.read a = s.buf.read a) ∧ Completed s t ∧
    (s.chk = false → OverflowKept s t) ∧
    (i = .nop ∨ (∃ src dst b, i = .rsh src dst b) → OverflowKept s t ∧ t.work = s.work ∧ t.draws = s.draws)

/-- 41_forward.md R155, 60_exceptions.md R254: with the overflow check on or off a command completes with the same BUF and the same
registers but for OVF, OVFINFO and OVFVAL. -/
def Obligations.OverflowCheckNeverChangesResults : Prop :=
  ∀ (i : Instr) (s t : State) (b : Bool), exec i s = .next t →
    ∃ t', exec i { s with chk := b } = .next t' ∧ t'.buf = t.buf ∧
      { t' with chk := t.chk, status := { t'.status with ovf := t.status.ovf }, ovfInfo := t.ovfInfo, ovfVal := t.ovfVal } = t

/-- 10_state.md R23: no command's outcome depends on the values that the working registers hold when it starts. -/
def Obligations.WorkingRegistersAreUnobservable : Prop :=
  ∀ (i : Instr) (s t : State) (w : Work), exec i s = .next t →
    ∃ t', exec i { s with work := w } = .next t' ∧ { t' with work := t.work } = t

/-- 41_forward.md R153: FDCT8's output depends only on the eight words read: two runs that read the same eight words, at whatever
addresses and strides, write the same eight words. -/
def Obligations.StrideIndependence : Prop :=
  ∀ (s s' t t' : State) (src src' dst dst' stride stride' : Addr),
    (∀ i : Fin 8, s.buf.read (src + BitVec.ofNat 8 i.val * stride) =
      s'.buf.read (src' + BitVec.ofNat 8 i.val * stride')) →
    exec (.fdct8 src dst stride) s = .next t → exec (.fdct8 src' dst' stride') s' = .next t' →
    ∀ k : Fin 8, t.buf.read (dst + BitVec.ofNat 8 k.val) = t'.buf.read (dst' + BitVec.ofNat 8 k.val)

/-- 70_reset_and_hazards.md R287: the eight addresses of a strided output are distinct exactly for the strides that are no multiple
of 64. -/
def Obligations.StridesThatRepeatAddresses : Prop :=
  ∀ r : Strided, (∀ i j : Fin 8, r.addr i = r.addr j → i = j) ↔ r.stride.toNat % 64 ≠ 0

/-- 42_inverse.md R187 on the machine: IDCT8 of an FDCT8's output restores the words FDCT8 read, at any strides but, for the output, a
multiple of 64. -/
def Obligations.RoundTripOnTheMachine : Prop :=
  ∀ (s t u : State) (src dst out stride stride' : Addr) (x : Vec8),
    (∀ i : Fin 8, s.buf.read (src + BitVec.ofNat 8 i.val * stride) = some (vecGet x i)) →
    stride'.toNat % 64 ≠ 0 →
    exec (.fdct8 src dst stride) s = .next t → exec (.idct8 dst out stride') t = .next u →
    ∀ i : Fin 8, u.buf.read (out + BitVec.ofNat 8 i.val * stride') = some (vecGet x i)

/-- 43_composition.md R218 on the machine: IDCT8X8 of an FDCT8X8's output restores the block, under both commands' region
conditions. -/
def Obligations.BlockRoundTripOnTheMachine : Prop :=
  ∀ (s t u : State) (src dst tmp out tmp' : Addr) (x : Block),
    (∀ r c, s.buf.read (blockAddr src r c) = some (x r c)) →
    disjointRegions tmp dst → (disjointRegions src tmp ∨ src = tmp) →
    disjointRegions dst tmp' → (disjointRegions tmp' out ∨ out = tmp') →
    exec (.fdct8x8 src dst tmp) s = .next t → exec (.idct8x8 dst out tmp') t = .next u →
    ∀ r c, u.buf.read (blockAddr out r c) = some (x r c)

/-- 43_composition.md R211, R212, R213, R219, 20_memory.md R76: FDCT8X8 on a written src region, for every overlap of its three regions:
its sixteen lines run one after another, each on the words that the one before it left. `p n` and `q n` are the words of BUF before
line n of pass 0 and of pass 1, and `x n` and `y n` the vectors that those lines read. `cur` and `chk` are kept by the model's choice
(log 5). -/
def Obligations.Fdct8x8RunsLineByLine : Prop :=
  ∀ (s : State) (src dst tmp : Addr), (∀ a ∈ region src, s.buf.isWritten a = true) →
    ∃ (t : State) (p q : Nat → Addr → Option Word) (x y : Block), exec (.fdct8x8 src dst tmp) s = .next t ∧
      p 0 = s.buf.read ∧ q 0 = p 8 ∧ t.buf.read = q 8 ∧
      PassRun (fdct liftTable) (fun r i => blockAddr src r i) (fun r k => blockAddr tmp r k) x p ∧
      PassRun (fdct liftTable) (fun c i => blockAddr tmp i c) (fun c v => blockAddr dst c v) y q ∧
      Completed s t ∧ OverflowReport (passEvents .fwd false x ++ passEvents .fwd true y) s t

/-- 43_composition.md R215, R216, R217, R219, 20_memory.md R76: IDCT8X8 on a written src region, for every overlap of its three regions:
its sixteen lines run one after another, each on the words that the one before it left, as in `Fdct8x8RunsLineByLine`. `cur` and `chk`
are kept by the model's choice (log 5). -/
def Obligations.Idct8x8RunsLineByLine : Prop :=
  ∀ (s : State) (src dst tmp : Addr), (∀ a ∈ region src, s.buf.isWritten a = true) →
    ∃ (t : State) (p q : Nat → Addr → Option Word) (x y : Block), exec (.idct8x8 src dst tmp) s = .next t ∧
      p 0 = s.buf.read ∧ q 0 = p 8 ∧ t.buf.read = q 8 ∧
      PassRun (idct liftTable) (fun c k => blockAddr src c k) (fun c i => blockAddr tmp i c) x p ∧
      PassRun (idct liftTable) (fun r k => blockAddr tmp r k) (fun r i => blockAddr dst r i) y q ∧
      Completed s t ∧ OverflowReport (passEvents .inv false x ++ passEvents .inv true y) s t

/-- 41_forward.md R148, 42_inverse.md R184: the overflow events of one kernel run, in execution order. `v j` is the operand register's
value just before the j-th lifting step, the one with LIFT[j] in the forward and LIFT[14 - j] in the inverse program. That step
yields an event exactly when `v j` times its M, or that product plus its O, leaves int32, and the event records step j, the kernel, the
line, the pass and `v j`. -/
def Obligations.OverflowEventsOfAKernel : Prop :=
  ∀ (T : LiftTable) (x : Vec8) (line : BitVec 3) (pass : Bool),
    (∃ v : Fin 15 → Word,
      (∀ (pre post : List MicroStep) (d p : Reg) (j : Fin 15),
        (forwardProgram = pre ++ .liftAdd d p j :: post ∨ forwardProgram = pre ++ .liftSub d p j :: post) →
        v j = getReg (runMicro T pre (forwardLoad x)) p) ∧
      overflowEvents T .fwd line pass 0 (fdctUses T x) = (List.finRange 15).filterMap fun j =>
        if LeavesInt32 (T j) (v j) then some ⟨BitVec.ofNat 4 j.val, .fwd, line, pass, v j⟩ else none) ∧
    ∃ v : Fin 15 → Word,
      (∀ (pre post : List MicroStep) (d p : Reg) (j : Fin 15),
        (inverseProgram = pre ++ .liftAdd d p j.rev :: post ∨ inverseProgram = pre ++ .liftSub d p j.rev :: post) →
        v j = getReg (runMicro T pre (inverseLoad x)) p) ∧
      overflowEvents T .inv line pass 0 (idctUses T x) = (List.finRange 15).filterMap fun j =>
        if LeavesInt32 (T j.rev) (v j) then some ⟨BitVec.ofNat 4 j.val, .inv, line, pass, v j⟩ else none
end

