-- ==== Sys2Proof/Laws/Decode.lean ====
section
/-! SUPPORT. The fields of an encoded word, and the one place where the decoder is taken apart (30_encoding.md R91, R95). -/

namespace Sys2Proof

@[simp] theorem opField_packFields (op : BitVec 4) (a b : Addr) (c : BitVec 8) : opField (packFields op a b c) = op := by
  refine BitVec.eq_of_getLsbD_eq fun i hi => ?_
  simp only [opField, packFields]
  interval_cases i <;> (simp only [BitVec.getLsbD_extractLsb', BitVec.getLsbD_append]; simp)

@[simp] theorem rsvField_packFields (op : BitVec 4) (a b : Addr) (c : BitVec 8) : rsvField (packFields op a b c) = 0 := by
  refine BitVec.eq_of_getLsbD_eq fun i hi => ?_
  simp only [rsvField, packFields]
  interval_cases i <;> (simp only [BitVec.getLsbD_extractLsb', BitVec.getLsbD_append]; simp)

@[simp] theorem aField_packFields (op : BitVec 4) (a b : Addr) (c : BitVec 8) : aField (packFields op a b c) = a := by
  refine BitVec.eq_of_getLsbD_eq fun i hi => ?_
  simp only [aField, packFields]
  interval_cases i <;> (simp only [BitVec.getLsbD_extractLsb', BitVec.getLsbD_append]; simp)

@[simp] theorem bField_packFields (op : BitVec 4) (a b : Addr) (c : BitVec 8) : bField (packFields op a b c) = b := by
  refine BitVec.eq_of_getLsbD_eq fun i hi => ?_
  simp only [bField, packFields]
  interval_cases i <;> (simp only [BitVec.getLsbD_extractLsb', BitVec.getLsbD_append]; simp)

@[simp] theorem cField_packFields (op : BitVec 4) (a b : Addr) (c : BitVec 8) : cField (packFields op a b c) = c := by
  refine BitVec.eq_of_getLsbD_eq fun i hi => ?_
  simp only [cField, packFields]
  interval_cases i <;> (simp only [BitVec.getLsbD_extractLsb', BitVec.getLsbD_append]; simp)

@[simp] theorem cHighField_packFields (op : BitVec 4) (a b : Addr) (c : BitVec 8) : cHighField (packFields op a b c) = c.extractLsb' 5 3 := by
  refine BitVec.eq_of_getLsbD_eq fun i hi => ?_
  simp only [cHighField, packFields]
  interval_cases i <;> (simp only [BitVec.getLsbD_extractLsb', BitVec.getLsbD_append]; simp)

@[simp] theorem shField_packFields (op : BitVec 4) (a b : Addr) (c : BitVec 8) : shField (packFields op a b c) = c.extractLsb' 0 5 := by
  refine BitVec.eq_of_getLsbD_eq fun i hi => ?_
  simp only [shField, packFields]
  interval_cases i <;> (simp only [BitVec.getLsbD_extractLsb', BitVec.getLsbD_append]; simp)

/-- Which of its branches the decoder takes, by the fields of the word. -/
theorem decode_cases (w : Word) :
    (rsvField w ≠ 0 ∧ decode w = .error .reservedField) ∨ (rsvField w = 0 ∧ (
   (opField w = 0 ∧ w = 0 ∧ decode w = .ok .nop) ∨ (opField w = 0 ∧ w ≠ 0 ∧ decode w = .error .nopOperand) ∨
   (opField w = 1 ∧ cHighField w ≠ 0 ∧ decode w = .error .rshHighBits) ∨
   (opField w = 1 ∧ cHighField w = 0 ∧ shField w = 0 ∧ decode w = .error .rshShiftZero) ∨
   (opField w = 1 ∧ cHighField w = 0 ∧ shField w ≠ 0 ∧ decode w = .ok (.rsh (aField w) (bField w) (shField w))) ∨
   (opField w = 2 ∧ decode w = .ok (.fdct8 (aField w) (bField w) (cField w))) ∨
   (opField w = 3 ∧ decode w = .ok (.idct8 (aField w) (bField w) (cField w))) ∨
   (opField w = 4 ∧ decode w = .ok (.fdct8x8 (aField w) (bField w) (cField w))) ∨
   (opField w = 5 ∧ decode w = .ok (.idct8x8 (aField w) (bField w) (cField w))) ∨
   (opField w ≠ 0 ∧ opField w ≠ 1 ∧ opField w ≠ 2 ∧ opField w ≠ 3 ∧ opField w ≠ 4 ∧ opField w ≠ 5 ∧ decode w = .error .reservedOpcode))) := by
  unfold decode
  by_cases h0 : rsvField w = 0#4
  · by_cases h1 : opField w = 0#4
    · by_cases h2 : w = 0#32
      · subst h2; right; decide
      · simp [h0, h1, h2]
    · by_cases h2 : opField w = 1#4
      · by_cases h3 : cHighField w = 0#3
        · by_cases h4 : shField w = 0#5 <;> simp [h0, h2, h3, h4]
        · simp [h0, h2, h3]
      · by_cases h3 : opField w = 2#4
        · simp [h0, h3]
        by_cases h4 : opField w = 3#4
        · simp [h0, h4]
        by_cases h5 : opField w = 4#4
        · simp [h0, h5]
        by_cases h6 : opField w = 5#4
        · simp [h0, h6]
        simp [h0, h1, h2, h3, h4, h5, h6]
  · simp [h0]

theorem isLegal_iff (w : Word) : isLegal w = true ↔ ∃ i, decode w = .ok i := by
  unfold isLegal
  cases h : decode w <;> simp

theorem not_isLegal_iff (w : Word) : isLegal w = false ↔ ∃ e, decode w = .error e := by
  unfold isLegal
  cases h : decode w <;> simp

end Sys2Proof
end

