-- ==== Sys2Proof/Laws/Events.lean ====
section
/-! SUPPORT. The lifting steps of a microprogram taken apart, and their overflow events (41_forward.md R148). -/

namespace Sys2Proof.Machine

theorem runMicro_append (T : LiftTable) (ops ops' : List MicroStep) (w : Work) :
    runMicro T (ops ++ ops') w = runMicro T ops' (runMicro T ops w) := by
  induction ops generalizing w with
  | nil => rfl
  | cons op ops ih => exact ih (microStep T w op)

theorem liftUses_append (T : LiftTable) (ops ops' : List MicroStep) (w : Work) :
    liftUses T (ops ++ ops') w = liftUses T ops w ++ liftUses T ops' (runMicro T ops w) := by
  induction ops generalizing w with
  | nil => rfl
  | cons op ops ih => simp only [List.cons_append, liftUses, runMicro, ih, List.append_assoc]

/-- Where a lifting step stands among the lifting steps of a microprogram, and the operand it reads. -/
theorem liftUse_mem (T : LiftTable) (pre post : List MicroStep) (op : MicroStep) (w : Work) {d p : Reg} {k : Fin 15}
    (h : op = .liftAdd d p k ∨ op = .liftSub d p k) :
    (⟨k, getReg (runMicro T pre w) p⟩ : LiftUse) ∈ liftUses T (pre ++ op :: post) w := by
  rw [liftUses_append]
  rcases h with rfl | rfl <;> simp [liftUses, microUse]

/-- The check of a lifting step is the spec's condition over exact integers (41_forward.md R148). -/
theorem liftOverflows_iff (c : LiftConst) (v : Word) : liftOverflows c v = true ↔ LeavesInt32 c v := by
  simp only [liftOverflows, inInt32, liftOffset, LeavesInt32, Bool.not_eq_true', Bool.and_eq_false_iff, decide_eq_false_iff_not]
  push_cast
  simp only [decide_eq_false_iff_not, not_and_or, or_assoc]

/-- The events of a list of lifting steps, numbered from `n`. -/
theorem overflowEvents_eq_filterMap (T : LiftTable) (d : Dir) (line : BitVec 3) (pass : Bool) (us : List LiftUse) (n : Nat) :
    overflowEvents T d line pass n us = (us.zipIdx n).filterMap fun u =>
      if LeavesInt32 (T u.1.k) u.1.value then some ⟨BitVec.ofNat 4 u.2, d, line, pass, u.1.value⟩ else none := by
  induction us generalizing n with
  | nil => rfl
  | cons u us ih =>
    rw [overflowEvents, List.zipIdx_cons, List.filterMap_cons, ih]
    by_cases h : LeavesInt32 (T u.k) u.value
    · rw [if_pos ((liftOverflows_iff _ _).mpr h), if_pos h]
    · rw [if_neg (mt (liftOverflows_iff _ _).mp h), if_neg h]

end Sys2Proof.Machine
end

