-- ==== Sys2Proof/Laws/Memory.lean ====
section
/-! SUPPORT. Laws of BUF: read after write and after erase, and the canonical form. -/

namespace Sys2Proof.Machine

theorem lookup_insertAt (m : Memory) (k k' : Nat) (v : Word) :
    (m.insertAt k v).lookup k' = if k = k' then some v else m.lookup k' := by
  induction m with
  | nil => simp [Memory.insertAt, Memory.lookup]
  | cons c rest ih =>
    obtain ⟨k0, v0⟩ := c
    simp only [Memory.insertAt]
    split_ifs with h1 h2 <;> simp only [Memory.lookup, ih] <;> split_ifs <;> first | rfl | omega

theorem lookup_filter_ne (m : Memory) (k k' : Nat) :
    Memory.lookup (List.filter (fun c => c.1 != k) m) k' = if k = k' then none else m.lookup k' := by
  induction m with
  | nil => simp [Memory.lookup]
  | cons c rest ih =>
    obtain ⟨k0, v0⟩ := c
    by_cases h : k0 = k
    · rw [List.filter_cons_of_neg (by simp [h]), ih]
      simp only [Memory.lookup]
      split_ifs <;> first | rfl | omega
    · rw [List.filter_cons_of_pos (by simp [h])]
      simp only [Memory.lookup, ih]
      split_ifs <;> first | rfl | omega

/-- Read after write: the word written, and every other word as it was. -/
theorem read_write (m : Memory) (a a' : Addr) (v : Word) :
    (m.write a v).read a' = if a = a' then some v else m.read a' := by
  simp only [Memory.write, Memory.read, lookup_insertAt, BitVec.toNat_inj]

@[simp] theorem read_write_same (m : Memory) (a : Addr) (v : Word) : (m.write a v).read a = some v := by
  simp [read_write]

@[simp] theorem read_write_ne (m : Memory) {a a' : Addr} (h : a ≠ a') (v : Word) :
    (m.write a v).read a' = m.read a' := by
  simp [read_write, h]

/-- Read after erase: the erased word is unwritten, every other word as it was. -/
theorem read_erase (m : Memory) (a a' : Addr) : (m.erase a).read a' = if a = a' then none else m.read a' := by
  simp only [Memory.erase, Memory.read, lookup_filter_ne, BitVec.toNat_inj]

@[simp] theorem writeAll_nil (m : Memory) : m.writeAll [] = m := rfl

@[simp] theorem writeAll_cons (m : Memory) (w : Addr × Word) (ws : List (Addr × Word)) :
    m.writeAll (w :: ws) = (m.write w.1 w.2).writeAll ws := rfl

theorem writeAll_append (m : Memory) (ws ws' : List (Addr × Word)) :
    m.writeAll (ws ++ ws') = (m.writeAll ws).writeAll ws' := by
  simp [Memory.writeAll, List.foldl_append]

@[simp] theorem eraseAll_nil (m : Memory) : m.eraseAll [] = m := rfl

@[simp] theorem eraseAll_cons (m : Memory) (a : Addr) (as : List Addr) : m.eraseAll (a :: as) = (m.erase a).eraseAll as := rfl

/-- Words outside a list of writes are as they were. -/
theorem read_writeAll_of_notMem (m : Memory) (ws : List (Addr × Word)) (a : Addr) (h : a ∉ ws.map Prod.fst) :
    (m.writeAll ws).read a = m.read a := by
  induction ws generalizing m with
  | nil => rfl
  | cons w ws ih =>
    simp only [List.map_cons, List.mem_cons, not_or] at h
    rw [writeAll_cons, ih _ h.2, read_write_ne _ (Ne.symm h.1)]

/-- The last write to a word wins. -/
theorem read_writeAll_last (m : Memory) (ws ws' : List (Addr × Word)) (a : Addr) (v : Word)
    (h : a ∉ ws'.map Prod.fst) : (m.writeAll (ws ++ (a, v) :: ws')).read a = some v := by
  rw [writeAll_append, writeAll_cons, read_writeAll_of_notMem _ _ _ h, read_write_same]

/-- Where the addresses written are distinct, each holds its value. -/
theorem read_writeAll_of_mem (m : Memory) (ws : List (Addr × Word)) (hd : (ws.map Prod.fst).Nodup)
    (a : Addr) (v : Word) (h : (a, v) ∈ ws) : (m.writeAll ws).read a = some v := by
  obtain ⟨l, r, rfl⟩ := List.append_of_mem h
  refine read_writeAll_last m l r a v ?_
  rw [List.map_append, List.map_cons] at hd
  exact (List.nodup_cons.mp (List.nodup_append.mp hd).2.1).1

theorem read_eraseAll (m : Memory) (as : List Addr) (a : Addr) :
    (m.eraseAll as).read a = if a ∈ as then none else m.read a := by
  induction as generalizing m with
  | nil => simp
  | cons b as ih =>
    rw [eraseAll_cons, ih, read_erase]
    by_cases h1 : a ∈ as
    · simp [h1]
    · by_cases h2 : b = a
      · simp [h2]
      · simp [h1, h2, Ne.symm h2]

@[simp] theorem isWritten_iff (m : Memory) (a : Addr) : m.isWritten a = true ↔ ∃ v, m.read a = some v := by
  simp [Memory.isWritten, Option.isSome_iff_exists]

/-- A write makes no word unwritten. -/
theorem isWritten_write (m : Memory) (a a' : Addr) (v : Word) (h : m.isWritten a' = true) :
    (m.write a v).isWritten a' = true := by
  simp only [isWritten_iff, read_write] at h ⊢
  split_ifs
  · exact ⟨v, rfl⟩
  · exact h

theorem isWritten_writeAll (m : Memory) (ws : List (Addr × Word)) (a : Addr) :
    (m.writeAll ws).isWritten a = true ↔ a ∈ ws.map Prod.fst ∨ m.isWritten a = true := by
  induction ws generalizing m with
  | nil => simp
  | cons w ws ih =>
    rw [writeAll_cons, ih]
    simp only [isWritten_iff, read_write, List.map_cons, List.mem_cons]
    by_cases h : w.1 = a
    · simp [h]
    · simp [h, Ne.symm h]

/-! ### The canonical form -/

theorem sortedFrom_mono {lo lo' : Nat} (h : lo' ≤ lo) {m : Memory} (hm : m.sortedFrom lo = true) :
    m.sortedFrom lo' = true := by
  cases m with
  | nil => rfl
  | cons c rest =>
    simp only [Memory.sortedFrom, Bool.and_eq_true, decide_eq_true_eq] at hm ⊢
    exact ⟨⟨by omega, hm.1.2⟩, hm.2⟩

theorem sortedFrom_insertAt {lo : Nat} {m : Memory} (hm : m.sortedFrom lo = true) {k : Nat} (v : Word)
    (hlo : lo ≤ k) (hk : k < 256) : (m.insertAt k v).sortedFrom lo = true := by
  induction m generalizing lo with
  | nil => simp [Memory.insertAt, Memory.sortedFrom, hlo, hk]
  | cons c rest ih =>
    obtain ⟨k0, v0⟩ := c
    simp only [Memory.sortedFrom, Bool.and_eq_true, decide_eq_true_eq] at hm
    simp only [Memory.insertAt]
    split_ifs with h1 h2
    · simp only [Memory.sortedFrom, Bool.and_eq_true, decide_eq_true_eq]
      exact ⟨⟨hlo, hk⟩, ⟨by omega, hm.1.2⟩, hm.2⟩
    · subst h2
      simp only [Memory.sortedFrom, Bool.and_eq_true, decide_eq_true_eq]
      exact ⟨⟨hlo, hk⟩, hm.2⟩
    · simp only [Memory.sortedFrom, Bool.and_eq_true, decide_eq_true_eq]
      exact ⟨hm.1, ih hm.2 (by omega)⟩

theorem sortedFrom_filter {lo : Nat} {m : Memory} (hm : m.sortedFrom lo = true) (p : Nat × Word → Bool) :
    Memory.sortedFrom lo (List.filter p m) = true := by
  induction m generalizing lo with
  | nil => rfl
  | cons c rest ih =>
    obtain ⟨k0, v0⟩ := c
    simp only [Memory.sortedFrom, Bool.and_eq_true, decide_eq_true_eq] at hm
    by_cases h : p (k0, v0) = true
    · rw [List.filter_cons_of_pos h]
      simp only [Memory.sortedFrom, Bool.and_eq_true, decide_eq_true_eq]
      exact ⟨hm.1, ih hm.2⟩
    · rw [List.filter_cons_of_neg h]
      exact sortedFrom_mono (by omega) (ih hm.2)

/-- A write keeps BUF in canonical form. -/
theorem wf_write {m : Memory} (h : m.wf = true) (a : Addr) (v : Word) : (m.write a v).wf = true :=
  sortedFrom_insertAt h v (Nat.zero_le _) a.isLt

/-- Erasing keeps BUF in canonical form. -/
theorem wf_erase {m : Memory} (h : m.wf = true) (a : Addr) : (m.erase a).wf = true := sortedFrom_filter h _

theorem wf_writeAll {m : Memory} (h : m.wf = true) (ws : List (Addr × Word)) : (m.writeAll ws).wf = true := by
  induction ws generalizing m with
  | nil => exact h
  | cons w ws ih => exact ih (wf_write h w.1 w.2)

theorem wf_eraseAll {m : Memory} (h : m.wf = true) (as : List Addr) : (m.eraseAll as).wf = true := by
  induction as generalizing m with
  | nil => exact h
  | cons a as ih => exact ih (wf_erase h a)

/-- BUF after power-on is in canonical form. -/
theorem wf_reset : State.reset.buf.wf = true := rfl

theorem lookup_none_of_sortedFrom {lo k : Nat} (hk : k < lo) {m : Memory} (hm : m.sortedFrom lo = true) :
    m.lookup k = none := by
  induction m generalizing lo with
  | nil => rfl
  | cons c rest ih =>
    obtain ⟨k0, v0⟩ := c
    simp only [Memory.sortedFrom, Bool.and_eq_true, decide_eq_true_eq] at hm
    have : k0 ≠ k := by omega
    simp only [Memory.lookup, if_neg this]
    exact ih (by omega) hm.2

/-- In canonical form, BUFs that read the same at every word are the same data. -/
theorem eq_of_read_eq {m m' : Memory} (hm : m.wf = true) (hm' : m'.wf = true) (h : ∀ a, m.read a = m'.read a) :
    m = m' := by
  have key : ∀ (m m' : Memory) (lo : Nat), m.sortedFrom lo = true → m'.sortedFrom lo = true →
      (∀ k, k < 256 → m.lookup k = m'.lookup k) → m = m' := by
    intro m
    induction m with
    | nil =>
      intro m' lo _ hm' h
      cases m' with
      | nil => rfl
      | cons c rest =>
        obtain ⟨k, v⟩ := c
        simp only [Memory.sortedFrom, Bool.and_eq_true, decide_eq_true_eq] at hm'
        simpa [Memory.lookup] using h k hm'.1.2
    | cons c rest ih =>
      intro m' lo hm hm' h
      obtain ⟨k, v⟩ := c
      cases m' with
      | nil =>
        simp only [Memory.sortedFrom, Bool.and_eq_true, decide_eq_true_eq] at hm
        simpa [Memory.lookup] using h k hm.1.2
      | cons c' rest' =>
        obtain ⟨k', v'⟩ := c'
        simp only [Memory.sortedFrom, Bool.and_eq_true, decide_eq_true_eq] at hm hm'
        have hkk : k = k' := by
          rcases Nat.lt_trichotomy k k' with hlt | heq | hgt
          · have h1 := h k hm.1.2
            have h2 : Memory.lookup rest' k = none := lookup_none_of_sortedFrom (Nat.lt_succ_of_lt hlt) hm'.2
            simp [Memory.lookup, h2, Nat.ne_of_gt hlt] at h1
          · exact heq
          · have h1 := h k' hm'.1.2
            have h2 : Memory.lookup rest k' = none := lookup_none_of_sortedFrom (Nat.lt_succ_of_lt hgt) hm.2
            simp [Memory.lookup, h2, Nat.ne_of_gt hgt] at h1
        subst hkk
        have hv : v = v' := by simpa [Memory.lookup] using h k hm.1.2
        subst hv
        have hrest : rest = rest' := by
          refine ih rest' (k + 1) hm.2 hm'.2 fun j hj => ?_
          by_cases hjk : k = j
          · subst hjk
            rw [lookup_none_of_sortedFrom (Nat.lt_succ_self k) hm.2,
              lookup_none_of_sortedFrom (Nat.lt_succ_self k) hm'.2]
          · simpa [Memory.lookup, hjk] using h j hj
        rw [hrest]
  refine key m m' 0 hm hm' fun k hk => ?_
  have := h (BitVec.ofNat 8 k)
  simpa [Memory.read, Nat.mod_eq_of_lt hk] using this

end Sys2Proof.Machine
end

