-- ==== Sys2Proof/Laws/State.lean ====
section
/-! SUPPORT. One lemma per field per update of State, so that no later proof unfolds a record update. -/

namespace Sys2Proof.Machine

variable (s : State)

/-! ### `raise_done` -/

@[simp] theorem raise_done_buf : (raise .done s).buf = s.buf := rfl
@[simp] theorem raise_done_cmd : (raise .done s).cmd = s.cmd := rfl
@[simp] theorem raise_done_status : (raise .done s).status = { s.status with done := true } := rfl
@[simp] theorem raise_done_ctrl : (raise .done s).ctrl = s.ctrl := rfl
@[simp] theorem raise_done_ovfInfo : (raise .done s).ovfInfo = s.ovfInfo := rfl
@[simp] theorem raise_done_ovfVal : (raise .done s).ovfVal = s.ovfVal := rfl
@[simp] theorem raise_done_phase : (raise .done s).phase = s.phase := rfl
@[simp] theorem raise_done_cur : (raise .done s).cur = s.cur := rfl
@[simp] theorem raise_done_chk : (raise .done s).chk = s.chk := rfl
@[simp] theorem raise_done_work : (raise .done s).work = s.work := rfl
@[simp] theorem raise_done_inputs : (raise .done s).inputs = s.inputs := rfl
@[simp] theorem raise_done_rdata : (raise .done s).rdata = s.rdata := rfl
@[simp] theorem raise_done_latLeft : (raise .done s).latLeft = s.latLeft := rfl
@[simp] theorem raise_done_draws : (raise .done s).draws = s.draws := rfl

/-! ### `raise_ill` -/

@[simp] theorem raise_ill_buf (w : Word) : (raise (.ill w) s).buf = s.buf := rfl
@[simp] theorem raise_ill_cmd (w : Word) : (raise (.ill w) s).cmd = w := rfl
@[simp] theorem raise_ill_status (w : Word) : (raise (.ill w) s).status = { s.status with ill := true } := rfl
@[simp] theorem raise_ill_ctrl (w : Word) : (raise (.ill w) s).ctrl = s.ctrl := rfl
@[simp] theorem raise_ill_ovfInfo (w : Word) : (raise (.ill w) s).ovfInfo = s.ovfInfo := rfl
@[simp] theorem raise_ill_ovfVal (w : Word) : (raise (.ill w) s).ovfVal = s.ovfVal := rfl
@[simp] theorem raise_ill_phase (w : Word) : (raise (.ill w) s).phase = s.phase := rfl
@[simp] theorem raise_ill_cur (w : Word) : (raise (.ill w) s).cur = s.cur := rfl
@[simp] theorem raise_ill_chk (w : Word) : (raise (.ill w) s).chk = s.chk := rfl
@[simp] theorem raise_ill_work (w : Word) : (raise (.ill w) s).work = s.work := rfl
@[simp] theorem raise_ill_inputs (w : Word) : (raise (.ill w) s).inputs = s.inputs := rfl
@[simp] theorem raise_ill_rdata (w : Word) : (raise (.ill w) s).rdata = s.rdata := rfl
@[simp] theorem raise_ill_latLeft (w : Word) : (raise (.ill w) s).latLeft = s.latLeft := rfl
@[simp] theorem raise_ill_draws (w : Word) : (raise (.ill w) s).draws = s.draws := rfl

/-! ### `raise_busyErr` -/

@[simp] theorem raise_busyErr_buf : (raise .busyErr s).buf = s.buf := rfl
@[simp] theorem raise_busyErr_cmd : (raise .busyErr s).cmd = s.cmd := rfl
@[simp] theorem raise_busyErr_status : (raise .busyErr s).status = { s.status with busyErr := true } := rfl
@[simp] theorem raise_busyErr_ctrl : (raise .busyErr s).ctrl = s.ctrl := rfl
@[simp] theorem raise_busyErr_ovfInfo : (raise .busyErr s).ovfInfo = s.ovfInfo := rfl
@[simp] theorem raise_busyErr_ovfVal : (raise .busyErr s).ovfVal = s.ovfVal := rfl
@[simp] theorem raise_busyErr_phase : (raise .busyErr s).phase = s.phase := rfl
@[simp] theorem raise_busyErr_cur : (raise .busyErr s).cur = s.cur := rfl
@[simp] theorem raise_busyErr_chk : (raise .busyErr s).chk = s.chk := rfl
@[simp] theorem raise_busyErr_work : (raise .busyErr s).work = s.work := rfl
@[simp] theorem raise_busyErr_inputs : (raise .busyErr s).inputs = s.inputs := rfl
@[simp] theorem raise_busyErr_rdata : (raise .busyErr s).rdata = s.rdata := rfl
@[simp] theorem raise_busyErr_latLeft : (raise .busyErr s).latLeft = s.latLeft := rfl
@[simp] theorem raise_busyErr_draws : (raise .busyErr s).draws = s.draws := rfl

/-! ### `raise_ovf` -/

@[simp] theorem raise_ovf_buf (e : OverflowEvent) : (raise (.ovf e) s).buf = s.buf := by
 obtain ⟨_, _, ⟨_, _, _, o⟩, _⟩ := s; cases o <;> rfl
@[simp] theorem raise_ovf_cmd (e : OverflowEvent) : (raise (.ovf e) s).cmd = s.cmd := by
 obtain ⟨_, _, ⟨_, _, _, o⟩, _⟩ := s; cases o <;> rfl
@[simp] theorem raise_ovf_status (e : OverflowEvent) : (raise (.ovf e) s).status = { s.status with ovf := true } := by
 obtain ⟨_, _, ⟨_, _, _, o⟩, _⟩ := s; cases o <;> rfl
@[simp] theorem raise_ovf_ctrl (e : OverflowEvent) : (raise (.ovf e) s).ctrl = s.ctrl := by
 obtain ⟨_, _, ⟨_, _, _, o⟩, _⟩ := s; cases o <;> rfl
@[simp] theorem raise_ovf_ovfInfo (e : OverflowEvent) : (raise (.ovf e) s).ovfInfo = if s.status.ovf then s.ovfInfo else ovfInfoOf e := by
 obtain ⟨_, _, ⟨_, _, _, o⟩, _⟩ := s; cases o <;> rfl
@[simp] theorem raise_ovf_ovfVal (e : OverflowEvent) : (raise (.ovf e) s).ovfVal = if s.status.ovf then s.ovfVal else e.value := by
 obtain ⟨_, _, ⟨_, _, _, o⟩, _⟩ := s; cases o <;> rfl
@[simp] theorem raise_ovf_phase (e : OverflowEvent) : (raise (.ovf e) s).phase = s.phase := by
 obtain ⟨_, _, ⟨_, _, _, o⟩, _⟩ := s; cases o <;> rfl
@[simp] theorem raise_ovf_cur (e : OverflowEvent) : (raise (.ovf e) s).cur = s.cur := by
 obtain ⟨_, _, ⟨_, _, _, o⟩, _⟩ := s; cases o <;> rfl
@[simp] theorem raise_ovf_chk (e : OverflowEvent) : (raise (.ovf e) s).chk = s.chk := by
 obtain ⟨_, _, ⟨_, _, _, o⟩, _⟩ := s; cases o <;> rfl
@[simp] theorem raise_ovf_work (e : OverflowEvent) : (raise (.ovf e) s).work = s.work := by
 obtain ⟨_, _, ⟨_, _, _, o⟩, _⟩ := s; cases o <;> rfl
@[simp] theorem raise_ovf_inputs (e : OverflowEvent) : (raise (.ovf e) s).inputs = s.inputs := by
 obtain ⟨_, _, ⟨_, _, _, o⟩, _⟩ := s; cases o <;> rfl
@[simp] theorem raise_ovf_rdata (e : OverflowEvent) : (raise (.ovf e) s).rdata = s.rdata := by
 obtain ⟨_, _, ⟨_, _, _, o⟩, _⟩ := s; cases o <;> rfl
@[simp] theorem raise_ovf_latLeft (e : OverflowEvent) : (raise (.ovf e) s).latLeft = s.latLeft := by
 obtain ⟨_, _, ⟨_, _, _, o⟩, _⟩ := s; cases o <;> rfl
@[simp] theorem raise_ovf_draws (e : OverflowEvent) : (raise (.ovf e) s).draws = s.draws := by
 obtain ⟨_, _, ⟨_, _, _, o⟩, _⟩ := s; cases o <;> rfl

/-! ### `clearEvents` -/

@[simp] theorem clearEvents_buf (v : Word) : (clearEvents v s).buf = s.buf := rfl
@[simp] theorem clearEvents_cmd (v : Word) : (clearEvents v s).cmd = s.cmd := rfl
@[simp] theorem clearEvents_status (v : Word) : (clearEvents v s).status = ⟨s.status.done && !v.getLsbD 1, s.status.ill && !v.getLsbD 2, s.status.busyErr && !v.getLsbD 3,
   s.status.ovf && !v.getLsbD 4⟩ := rfl
@[simp] theorem clearEvents_ctrl (v : Word) : (clearEvents v s).ctrl = s.ctrl := rfl
@[simp] theorem clearEvents_ovfInfo (v : Word) : (clearEvents v s).ovfInfo = if v.getLsbD 4 then ovfInfoClear else s.ovfInfo := rfl
@[simp] theorem clearEvents_ovfVal (v : Word) : (clearEvents v s).ovfVal = if v.getLsbD 4 then 0 else s.ovfVal := rfl
@[simp] theorem clearEvents_phase (v : Word) : (clearEvents v s).phase = s.phase := rfl
@[simp] theorem clearEvents_cur (v : Word) : (clearEvents v s).cur = s.cur := rfl
@[simp] theorem clearEvents_chk (v : Word) : (clearEvents v s).chk = s.chk := rfl
@[simp] theorem clearEvents_work (v : Word) : (clearEvents v s).work = s.work := rfl
@[simp] theorem clearEvents_inputs (v : Word) : (clearEvents v s).inputs = s.inputs := rfl
@[simp] theorem clearEvents_rdata (v : Word) : (clearEvents v s).rdata = s.rdata := rfl
@[simp] theorem clearEvents_latLeft (v : Word) : (clearEvents v s).latLeft = s.latLeft := rfl
@[simp] theorem clearEvents_draws (v : Word) : (clearEvents v s).draws = s.draws := rfl

/-! ### `leaveWork` -/

@[simp] theorem leaveWork_buf : (leaveWork s).buf = s.buf := rfl
@[simp] theorem leaveWork_cmd : (leaveWork s).cmd = s.cmd := rfl
@[simp] theorem leaveWork_status : (leaveWork s).status = s.status := rfl
@[simp] theorem leaveWork_ctrl : (leaveWork s).ctrl = s.ctrl := rfl
@[simp] theorem leaveWork_ovfInfo : (leaveWork s).ovfInfo = s.ovfInfo := rfl
@[simp] theorem leaveWork_ovfVal : (leaveWork s).ovfVal = s.ovfVal := rfl
@[simp] theorem leaveWork_phase : (leaveWork s).phase = s.phase := rfl
@[simp] theorem leaveWork_cur : (leaveWork s).cur = s.cur := rfl
@[simp] theorem leaveWork_chk : (leaveWork s).chk = s.chk := rfl
@[simp] theorem leaveWork_work : (leaveWork s).work = Config.freeWork s.draws := rfl
@[simp] theorem leaveWork_inputs : (leaveWork s).inputs = s.inputs := rfl
@[simp] theorem leaveWork_rdata : (leaveWork s).rdata = s.rdata := rfl
@[simp] theorem leaveWork_latLeft : (leaveWork s).latLeft = s.latLeft := rfl
@[simp] theorem leaveWork_draws : (leaveWork s).draws = s.draws + 1 := rfl

/-! ### `takeInput` -/

@[simp] theorem takeInput_buf (rest : List Input) : (takeInput s rest).buf = s.buf := by
 unfold takeInput; split <;> simp [*]
@[simp] theorem takeInput_cmd (rest : List Input) : (takeInput s rest).cmd = s.cmd := by
 unfold takeInput; split <;> simp [*]
@[simp] theorem takeInput_status (rest : List Input) : (takeInput s rest).status = s.status := by
 unfold takeInput; split <;> simp [*]
@[simp] theorem takeInput_ctrl (rest : List Input) : (takeInput s rest).ctrl = s.ctrl := by
 unfold takeInput; split <;> simp [*]
@[simp] theorem takeInput_ovfInfo (rest : List Input) : (takeInput s rest).ovfInfo = s.ovfInfo := by
 unfold takeInput; split <;> simp [*]
@[simp] theorem takeInput_ovfVal (rest : List Input) : (takeInput s rest).ovfVal = s.ovfVal := by
 unfold takeInput; split <;> simp [*]
@[simp] theorem takeInput_phase (rest : List Input) : (takeInput s rest).phase = s.phase := by
 unfold takeInput; split <;> simp [*]
@[simp] theorem takeInput_cur (rest : List Input) : (takeInput s rest).cur = s.cur := by
 unfold takeInput; split <;> simp [*]
@[simp] theorem takeInput_chk (rest : List Input) : (takeInput s rest).chk = s.chk := by
 unfold takeInput; split <;> simp [*]
@[simp] theorem takeInput_work (rest : List Input) : (takeInput s rest).work = s.work := by
 unfold takeInput; split <;> simp [*]
@[simp] theorem takeInput_inputs (rest : List Input) : (takeInput s rest).inputs = rest := by
 unfold takeInput; split <;> simp [*]
@[simp] theorem takeInput_rdata (rest : List Input) : (takeInput s rest).rdata = s.rdata := by
 unfold takeInput; split <;> simp [*]
@[simp] theorem takeInput_latLeft (rest : List Input) : (takeInput s rest).latLeft = match s.phase with | .idle => s.latLeft | .busy => s.latLeft - 1 := by
 unfold takeInput; split <;> simp [*]
@[simp] theorem takeInput_draws (rest : List Input) : (takeInput s rest).draws = s.draws := by
 unfold takeInput; split <;> simp [*]

/-! ### `applyReset` -/

@[simp] theorem applyReset_buf : (applyReset s).buf = s.buf.eraseAll (abortedWords s) := rfl
@[simp] theorem applyReset_cmd : (applyReset s).cmd = 0 := rfl
@[simp] theorem applyReset_status : (applyReset s).status = ⟨false, false, false, false⟩ := rfl
@[simp] theorem applyReset_ctrl : (applyReset s).ctrl = ⟨false, false⟩ := rfl
@[simp] theorem applyReset_ovfInfo : (applyReset s).ovfInfo = ovfInfoClear := rfl
@[simp] theorem applyReset_ovfVal : (applyReset s).ovfVal = 0 := rfl
@[simp] theorem applyReset_phase : (applyReset s).phase = .idle := rfl
@[simp] theorem applyReset_cur : (applyReset s).cur = 0 := rfl
@[simp] theorem applyReset_chk : (applyReset s).chk = false := rfl
@[simp] theorem applyReset_work : (applyReset s).work = State.reset.work := rfl
@[simp] theorem applyReset_inputs : (applyReset s).inputs = s.inputs := rfl
@[simp] theorem applyReset_rdata : (applyReset s).rdata = none := rfl
@[simp] theorem applyReset_latLeft : (applyReset s).latLeft = 0 := rfl
@[simp] theorem applyReset_draws : (applyReset s).draws = s.draws := rfl

end Sys2Proof.Machine
end

