-- ==== Sys2Proof/Laws/Ops.lean ====
section
/-! SUPPORT. What each shared operation can do, said once: completion, the lines of a kernel command, the commands, and one step. -/

namespace Sys2Proof.Machine

/-! ### Completion -/

theorem overflowCapture_eq (evs : List OverflowEvent) (s : State) :
    overflowCapture evs s = s ∨ ∃ e rest, evs = e :: rest ∧ s.chk = true ∧ overflowCapture evs s = raise (.ovf e) s := by
  unfold overflowCapture
  split
  · exact .inr ⟨_, _, rfl, ‹_›, rfl⟩
  · exact .inl rfl

/-- The fields of the state that a completion leaves. -/
theorem complete_fields (m : Memory) (evs : List OverflowEvent) (s : State) :
    (complete m evs s).buf = m ∧ Completed s (complete m evs s) ∧ OverflowReport evs s (complete m evs s) ∧
      (complete m evs s).work = s.work ∧ (complete m evs s).draws = s.draws := by
  obtain ⟨buf, cmd, ⟨d, i, b, o⟩, ctrl, oi, ov, ph, cur, chk, work, inp, rd, ll, dr⟩ := s
  cases evs with
  | nil => cases chk <;> simp [complete, overflowCapture, Completed, OverflowReport, OverflowKept, raise]
  | cons e rest =>
    cases chk <;> cases o <;>
      simp [complete, overflowCapture, Completed, OverflowReport, OverflowKept, raise]

@[simp] theorem complete_buf (m : Memory) (evs : List OverflowEvent) (s : State) : (complete m evs s).buf = m :=
  (complete_fields m evs s).1

theorem complete_completed (m : Memory) (evs : List OverflowEvent) (s : State) : Completed s (complete m evs s) :=
  (complete_fields m evs s).2.1

theorem complete_report (m : Memory) (evs : List OverflowEvent) (s : State) : OverflowReport evs s (complete m evs s) :=
  (complete_fields m evs s).2.2.1

@[simp] theorem complete_work (m : Memory) (evs : List OverflowEvent) (s : State) : (complete m evs s).work = s.work :=
  (complete_fields m evs s).2.2.2.1

@[simp] theorem complete_draws (m : Memory) (evs : List OverflowEvent) (s : State) :
    (complete m evs s).draws = s.draws :=
  (complete_fields m evs s).2.2.2.2

/-- Completing after the working registers were left is what completing alone is, to every field but those. -/
theorem complete_leaveWork_fields (m : Memory) (evs : List OverflowEvent) (s : State) :
    Completed s (complete m evs (leaveWork s)) ∧ OverflowReport evs s (complete m evs (leaveWork s)) :=
  ⟨complete_completed m evs (leaveWork s), complete_report m evs (leaveWork s)⟩

theorem OverflowReport.kept_of_chk {evs : List OverflowEvent} {s t : State} (h : OverflowReport evs s t)
    (hc : s.chk = false) : OverflowKept s t := by
  cases evs with
  | nil => exact h
  | cons e rest => simpa [OverflowReport, hc] using h

/-! ### Loads and stores of eight words -/

theorem loadVec_eq_some (m : Memory) (r : Strided) (x : Vec8) :
    m.loadVec r = some x ↔ ∀ i : Fin 8, m.read (r.addr i) = some (vecGet x i) := by
  constructor
  · intro h
    simp only [Memory.loadVec, Option.bind_eq_bind, Option.bind_eq_some_iff, Option.pure_def, Option.some.injEq] at h
    obtain ⟨x0, h0, x1, h1, x2, h2, x3, h3, x4, h4, x5, h5, x6, h6, x7, h7, rfl⟩ := h
    intro i
    fin_cases i <;> assumption
  · intro h
    have h0 := h 0
    have h1 := h 1
    have h2 := h 2
    have h3 := h 3
    have h4 := h 4
    have h5 := h 5
    have h6 := h 6
    have h7 := h 7
    simp only [vecGet] at h0 h1 h2 h3 h4 h5 h6 h7
    simp [Memory.loadVec, h0, h1, h2, h3, h4, h5, h6, h7]

theorem mem_addrs (r : Strided) (a : Addr) : a ∈ r.addrs ↔ ∃ i : Fin 8, a = r.addr i := by
  constructor
  · intro h
    simp only [Strided.addrs, List.mem_cons, List.not_mem_nil, or_false] at h
    rcases h with h | h | h | h | h | h | h | h <;> exact ⟨_, h⟩
  · rintro ⟨i, rfl⟩
    fin_cases i <;> simp [Strided.addrs]

/-- A load succeeds exactly when its eight words are written. -/
theorem loadVec_isSome (m : Memory) (r : Strided) :
    (∃ x, m.loadVec r = some x) ↔ ∀ a ∈ r.addrs, m.isWritten a = true := by
  constructor
  · rintro ⟨x, h⟩ a ha
    obtain ⟨i, rfl⟩ := (mem_addrs r a).mp ha
    exact (isWritten_iff _ _).mpr ⟨_, (loadVec_eq_some m r x).mp h i⟩
  · intro h
    have hv : ∀ i : Fin 8, ∃ v, m.read (r.addr i) = some v := fun i =>
      (isWritten_iff _ _).mp (h _ ((mem_addrs r _).mpr ⟨i, rfl⟩))
    choose v hv using hv
    refine ⟨vecOf v, (loadVec_eq_some m r _).mpr fun i => ?_⟩
    rw [hv i]
    fin_cases i <;> rfl

@[simp] theorem vecGet_vecOf (f : Fin 8 → Word) (i : Fin 8) : vecGet (vecOf f) i = f i := by
  fin_cases i <;> rfl

@[simp] theorem vecOf_vecGet (x : Vec8) : vecOf (vecGet x) = x := rfl

@[simp] theorem vecWrites_fst (r : Strided) (y : Vec8) : (vecWrites r y).map Prod.fst = r.addrs := rfl

theorem vecWrites_eq (r : Strided) (y : Vec8) :
    vecWrites r y = (List.finRange 8).map fun i => (r.addr i, vecGet y i) := by
  simp [vecWrites, List.finRange, List.ofFn, vecGet, Fin.foldr, Fin.foldr.loop]

/-- Words outside a store's eight are as they were. -/
theorem read_store_of_notMem (m : Memory) (r : Strided) (y : Vec8) (a : Addr) (h : a ∉ r.addrs) :
    (m.writeAll (vecWrites r y)).read a = m.read a :=
  read_writeAll_of_notMem _ _ _ (by simpa using h)

/-- The word of the last index at an address wins. -/
theorem read_store_of_last (m : Memory) (r : Strided) (y : Vec8) (i : Fin 8)
    (h : ∀ j, i < j → r.addr j ≠ r.addr i) : (m.writeAll (vecWrites r y)).read (r.addr i) = some (vecGet y i) := by
  fin_cases i <;>
    simp only [vecWrites, writeAll_cons, writeAll_nil, vecGet] <;>
    simp [read_write] <;> simp_all [Fin.forall_fin_succ]

theorem read_store (m : Memory) (r : Strided) (y : Vec8) (hd : ∀ i j, r.addr i = r.addr j → i = j) (i : Fin 8) :
    (m.writeAll (vecWrites r y)).read (r.addr i) = some (vecGet y i) :=
  read_store_of_last m r y i fun j hij hji => by simp [hd _ _ hji] at hij

/-! ### Lines -/

theorem runLine_eq_some {d : Dir} {l : Line} {m m' : Memory} {ev : List OverflowEvent} :
    runLine d l m = some (m', ev) ↔ ∃ x, m.loadVec l.rd = some x ∧
      m' = m.writeAll (vecWrites l.wr (kernel d x)) ∧
      ev = overflowEvents liftTable d l.line l.pass 0 (kernelUses d x) := by
  unfold runLine
  cases h : m.loadVec l.rd with
  | none => simp
  | some x =>
    simp only [Option.some.injEq, Prod.mk.injEq, exists_eq_left']
    exact ⟨fun h => ⟨h.1.symm, h.2.symm⟩, fun h => ⟨h.1.symm, h.2.symm⟩⟩

@[simp] theorem runLines_nil (d : Dir) (m : Memory) : runLines d [] m = some (m, []) := rfl

theorem runLines_cons_eq_some {d : Dir} {l : Line} {ls : List Line} {m m' : Memory} {ev : List OverflowEvent} :
    runLines d (l :: ls) m = some (m', ev) ↔ ∃ m1 ev1 ev2, runLine d l m = some (m1, ev1) ∧
      runLines d ls m1 = some (m', ev2) ∧ ev = ev1 ++ ev2 := by
  simp only [runLines]
  cases h : runLine d l m with
  | none => simp
  | some p =>
    obtain ⟨m1, ev1⟩ := p
    cases h2 : runLines d ls m1 with
    | none => simp [h2]
    | some q =>
      obtain ⟨m2, ev2⟩ := q
      simp only [h2, Option.some.injEq, Prod.mk.injEq]
      constructor
      · rintro ⟨rfl, rfl⟩
        exact ⟨m1, ev1, ev2, ⟨rfl, rfl⟩, h2, rfl⟩
      · rintro ⟨m1', ev1', ev2', ⟨rfl, rfl⟩, h3, rfl⟩
        rw [h2] at h3
        simp only [Option.some.injEq, Prod.mk.injEq] at h3
        exact ⟨h3.1, by rw [h3.2]⟩

theorem runLines_append {d : Dir} {ls ls' : List Line} {m m' : Memory} {ev : List OverflowEvent} :
    runLines d (ls ++ ls') m = some (m', ev) ↔ ∃ m1 ev1 ev2, runLines d ls m = some (m1, ev1) ∧
      runLines d ls' m1 = some (m', ev2) ∧ ev = ev1 ++ ev2 := by
  induction ls generalizing m ev with
  | nil => simp
  | cons l ls ih =>
    simp only [List.cons_append, runLines_cons_eq_some, ih]
    constructor
    · rintro ⟨m1, ev1, _, h1, ⟨m2, ev2, ev3, h2, h3, rfl⟩, rfl⟩
      exact ⟨m2, ev1 ++ ev2, ev3, ⟨m1, ev1, ev2, h1, h2, rfl⟩, h3, by simp⟩
    · rintro ⟨m2, _, ev3, ⟨m1, ev1, ev2, h1, h2, rfl⟩, h3, rfl⟩
      exact ⟨m1, ev1, ev2 ++ ev3, h1, ⟨m2, ev2, ev3, h2, h3, rfl⟩, by simp⟩

/-- What lines leave as it was, and that they keep the canonical form. -/
theorem runLines_frame {d : Dir} {ls : List Line} {m m' : Memory} {ev : List OverflowEvent}
    (h : runLines d ls m = some (m', ev)) :
    (∀ a, (∀ l ∈ ls, a ∉ l.wr.addrs) → m'.read a = m.read a) ∧ (m.wf = true → m'.wf = true) ∧
    (∀ a, m'.isWritten a = true ↔ m.isWritten a = true ∨ ∃ l ∈ ls, a ∈ l.wr.addrs) := by
  induction ls generalizing m ev with
  | nil =>
    simp only [runLines_nil, Option.some.injEq, Prod.mk.injEq] at h
    obtain ⟨rfl, -⟩ := h
    exact ⟨fun _ _ => rfl, id, by simp⟩
  | cons l ls ih =>
    obtain ⟨m1, ev1, ev2, h1, h2, -⟩ := runLines_cons_eq_some.mp h
    obtain ⟨x, -, rfl, -⟩ := runLine_eq_some.mp h1
    obtain ⟨f1, f2, f3⟩ := ih h2
    refine ⟨fun a ha => ?_, fun hm => f2 (wf_writeAll hm _), fun a => ?_⟩
    · rw [f1 a fun l' hl' => ha l' (List.mem_cons_of_mem _ hl')]
      exact read_store_of_notMem _ _ _ _ (ha l List.mem_cons_self)
    · rw [f3, isWritten_writeAll, vecWrites_fst]
      simp only [List.mem_cons, exists_eq_or_imp]
      tauto

/-- Lines whose inputs are all written, by the start or by earlier lines, run to the end. -/
theorem runLines_exists {d : Dir} (ls : List Line) (m : Memory)
    (h : ∀ l ∈ ls, ∀ a ∈ l.rd.addrs, m.isWritten a = true) : ∃ m' ev, runLines d ls m = some (m', ev) := by
  induction ls generalizing m with
  | nil => exact ⟨m, [], rfl⟩
  | cons l ls ih =>
    obtain ⟨x, hx⟩ := (loadVec_isSome m l.rd).mpr (h l List.mem_cons_self)
    have h1 := (runLine_eq_some (d := d) (l := l)).mpr ⟨x, hx, rfl, rfl⟩
    obtain ⟨m', ev, h2⟩ := ih (m.writeAll (vecWrites l.wr (kernel d x))) fun l' hl' a ha =>
      (isWritten_writeAll _ _ _).mpr (.inr (h l' (List.mem_cons_of_mem _ hl') a ha))
    exact ⟨m', _, runLines_cons_eq_some.mpr ⟨_, _, _, h1, h2, rfl⟩⟩

/-! ### Commands -/

/-- A kernel command answers a next state exactly when its read set is written and its lines run. -/
theorem execLines_eq_next {d : Dir} {reads : List Addr} {ls : List Line} {s t : State} :
    execLines d reads ls s = .next t ↔ (∀ a ∈ reads, s.buf.isWritten a = true) ∧
      ∃ m evs, runLines d ls s.buf = some (m, evs) ∧ t = complete m evs (leaveWork s) := by
  unfold execLines
  by_cases h : reads.all s.buf.isWritten = true
  · rw [if_pos h]
    have h' := List.all_eq_true.mp h
    cases hr : runLines d ls s.buf with
    | none => simp
    | some p =>
      obtain ⟨m, evs⟩ := p
      simp only [Host.Outcome.next.injEq, Option.some.injEq, Prod.mk.injEq]
      constructor
      · rintro rfl
        exact ⟨h', m, evs, ⟨rfl, rfl⟩, rfl⟩
      · rintro ⟨-, m', evs', ⟨rfl, rfl⟩, rfl⟩
        rfl
  · rw [if_neg h]
    simp only [reduceCtorEq, false_iff, not_and]
    exact fun h' => absurd (List.all_eq_true.mpr h') h

theorem execLines_fault {d : Dir} {reads : List Addr} {ls : List Line} {s : State}
    (h : ∃ a ∈ reads, s.buf.read a = none) : execLines d reads ls s = .fault .unwrittenCommandRead := by
  obtain ⟨a, ha, hn⟩ := h
  unfold execLines
  rw [if_neg]
  intro hall
  have := List.all_eq_true.mp hall a ha
  simp [Memory.isWritten, hn] at this

/-- The lines that a kernel command runs. -/
def commandLines : Instr → List Line
  | .nop => []
  | .rsh _ _ _ => []
  | .fdct8 src dst stride => fdct8Lines src dst stride
  | .idct8 src dst stride => idct8Lines src dst stride
  | .fdct8x8 src dst tmp => fdct8x8Lines src dst tmp
  | .idct8x8 src dst tmp => idct8x8Lines src dst tmp

theorem exec_nop (s : State) : exec .nop s = .next (complete s.buf [] s) := rfl

theorem exec_rsh_eq_next {src dst : Addr} {b : BitVec 5} {s t : State} :
    exec (.rsh src dst b) s = .next t ↔ b ≠ 0 ∧ ∃ a, s.buf.read src = some a ∧
      t = complete (s.buf.write dst (rshift a b.toNat)) [] s := by
  show execRsh src dst b s = _ ↔ _
  unfold execRsh
  by_cases hb : b = 0
  · simp [hb]
  · rw [if_neg hb]
    cases h : s.buf.read src with
    | none => simp
    | some a =>
      simp only [Host.Outcome.next.injEq, Option.some.injEq, exists_eq_left', ne_eq, hb, not_false_eq_true, true_and]
      exact ⟨Eq.symm, Eq.symm⟩

/-- The kernel that a command runs, if it runs one. -/
def commandDir : Instr → Option Dir
  | .nop => none
  | .rsh _ _ _ => none
  | .fdct8 _ _ _ => some .fwd
  | .idct8 _ _ _ => some .inv
  | .fdct8x8 _ _ _ => some .fwd
  | .idct8x8 _ _ _ => some .inv

/-- The four kernel commands are their lines. -/
theorem exec_kernel {i : Instr} {d : Dir} (h : commandDir i = some d) (s : State) :
    exec i s = execLines d (readSet i) (commandLines i) s := by
  cases i <;> simp only [commandDir, reduceCtorEq, Option.some.injEq] at h <;> subst h <;> rfl

/-- What a command that answers a next state has done. -/
theorem exec_next_cases {i : Instr} {s t : State} (h : exec i s = .next t) :
    (i = .nop ∧ t = complete s.buf [] s) ∨
    (∃ src dst b a, i = .rsh src dst b ∧ b ≠ 0 ∧ s.buf.read src = some a ∧
      t = complete (s.buf.write dst (rshift a b.toNat)) [] s) ∨
    (∃ d m evs, commandDir i = some d ∧ runLines d (commandLines i) s.buf = some (m, evs) ∧
      (∀ a ∈ readSet i, s.buf.isWritten a = true) ∧ t = complete m evs (leaveWork s)) := by
  cases hd : commandDir i with
  | some d =>
    rw [exec_kernel hd] at h
    obtain ⟨hr, m, evs, hm, rfl⟩ := execLines_eq_next.mp h
    exact .inr (.inr ⟨d, m, evs, rfl, hm, hr, rfl⟩)
  | none =>
    cases i with
    | nop => exact .inl ⟨rfl, by rw [exec_nop] at h; exact (Host.Outcome.next.inj h).symm⟩
    | rsh src dst b =>
      obtain ⟨hb, a, ha, rfl⟩ := exec_rsh_eq_next.mp h
      exact .inr (.inl ⟨src, dst, b, a, rfl, hb, ha, rfl⟩)
    | fdct8 => simp [commandDir] at hd
    | idct8 => simp [commandDir] at hd
    | fdct8x8 => simp [commandDir] at hd
    | idct8x8 => simp [commandDir] at hd

/-! ### Blocks -/

theorem mem_region (base a : Addr) : a ∈ region base ↔ ∃ k, k < 64 ∧ a = base + BitVec.ofNat 8 k := by
  simp only [region, List.mem_map, List.mem_range]
  exact ⟨fun ⟨k, h, e⟩ => ⟨k, h, e.symm⟩, fun ⟨k, h, e⟩ => ⟨k, h, e.symm⟩⟩

/-- The words of a block's region are the words of its lines. -/
theorem mem_region_iff_blockAddr (base a : Addr) : a ∈ region base ↔ ∃ n i : Fin 8, a = blockAddr base n i := by
  rw [mem_region]
  constructor
  · rintro ⟨k, hk, rfl⟩
    exact ⟨⟨k / 8, by omega⟩, ⟨k % 8, by omega⟩, by simp [blockAddr, Nat.div_add_mod]⟩
  · rintro ⟨n, i, rfl⟩
    exact ⟨8 * n.val + i.val, by omega, rfl⟩

theorem blockAddr_mem_region (base : Addr) (n i : Fin 8) : blockAddr base n i ∈ region base :=
  (mem_region_iff_blockAddr base _).mpr ⟨n, i, rfl⟩

/-- The 64 addresses of a block are distinct. -/
theorem blockAddr_inj {base : Addr} {n i n' i' : Fin 8} (h : blockAddr base n i = blockAddr base n' i') :
    n = n' ∧ i = i' := by
  simp only [blockAddr, BitVec.add_right_inj] at h
  have := congrArg BitVec.toNat h
  simp only [BitVec.toNat_ofNat] at this
  omega

theorem row_addr (base : Addr) (n i : Fin 8) : (row base (BitVec.ofNat 3 n.val)).addr i = blockAddr base n i := by
  simp only [row, rowOffset, Strided.addr, blockAddr]
  apply BitVec.eq_of_toNat_eq
  simp [BitVec.toNat_add]
  omega

theorem column_addr (base : Addr) (n i : Fin 8) : (column base (BitVec.ofNat 3 n.val)).addr i = blockAddr base i n := by
  simp only [column, Strided.addr, blockAddr]
  apply BitVec.eq_of_toNat_eq
  simp [BitVec.toNat_add, BitVec.toNat_mul]
  omega

theorem lineNumbers_eq : lineNumbers = (List.finRange 8).map fun n => BitVec.ofNat 3 n.val := by decide

/-- The write set of a kernel command is what its lines write. -/
theorem mem_writeSet_iff_lines {i : Instr} {d : Dir} (h : commandDir i = some d) (a : Addr) :
    a ∈ writeSet i ↔ ∃ l ∈ commandLines i, a ∈ l.wr.addrs := by
  have hrow : ∀ base, (∃ n : Fin 8, a ∈ (row base (BitVec.ofNat 3 n.val)).addrs) ↔ a ∈ region base := fun base => by
    simp only [mem_addrs, row_addr, mem_region_iff_blockAddr]
  have hcol : ∀ base, (∃ n : Fin 8, a ∈ (column base (BitVec.ofNat 3 n.val)).addrs) ↔ a ∈ region base := fun base => by
    simp only [mem_addrs, column_addr, mem_region_iff_blockAddr]
    exact exists_comm
  cases i with
  | nop => simp [commandDir] at h
  | rsh src dst b => simp [commandDir] at h
  | fdct8 src dst stride => simp [writeSet, commandLines, fdct8Lines]
  | idct8 src dst stride => simp [writeSet, commandLines, idct8Lines]
  | fdct8x8 src dst tmp =>
    simp only [writeSet, commandLines, fdct8x8Lines, lineNumbers_eq, List.mem_append, List.map_map, or_and_right,
      exists_or, ← hrow]
    simp
  | idct8x8 src dst tmp =>
    simp only [writeSet, commandLines, idct8x8Lines, lineNumbers_eq, List.mem_append, List.map_map, or_and_right,
      exists_or]
    rw [← hcol, ← hrow]
    simp

/-- The lines of a kernel command find their inputs written when its read set is. -/
theorem commandLines_run {i : Instr} {d : Dir} (hd : commandDir i = some d) {m : Memory}
    (h : ∀ a ∈ readSet i, m.isWritten a = true) : ∃ m' ev, runLines d (commandLines i) m = some (m', ev) := by
  have two : ∀ ls ls' : List Line, (∀ l ∈ ls, ∀ a ∈ l.rd.addrs, m.isWritten a = true) →
      (∀ l ∈ ls', ∀ a ∈ l.rd.addrs, ∃ l1 ∈ ls, a ∈ l1.wr.addrs) → ∃ m' ev, runLines d (ls ++ ls') m = some (m', ev) := by
    intro ls ls' h1 h2
    obtain ⟨m1, ev1, hr⟩ := runLines_exists (d := d) ls m h1
    obtain ⟨m2, ev2, hr2⟩ := runLines_exists (d := d) ls' m1 fun l hl a ha =>
      ((runLines_frame hr).2.2 a).mpr (.inr (h2 l hl a ha))
    exact ⟨m2, _, runLines_append.mpr ⟨_, _, _, hr, hr2, rfl⟩⟩
  have hrow : ∀ (base a : Addr) (n : Fin 8), a ∈ (row base (BitVec.ofNat 3 n.val)).addrs → a ∈ region base := by
    intro base a n ha
    obtain ⟨k, rfl⟩ := (mem_addrs _ _).mp ha
    exact row_addr base n k ▸ blockAddr_mem_region _ _ _
  cases i with
  | nop => simp [commandDir] at hd
  | rsh src dst b => simp [commandDir] at hd
  | fdct8 src dst stride => exact runLines_exists _ m (by simpa [commandLines, fdct8Lines, readSet] using h)
  | idct8 src dst stride => exact runLines_exists _ m (by simpa [commandLines, idct8Lines, readSet] using h)
  | fdct8x8 src dst tmp =>
    refine two _ _ ?_ ?_ <;> simp only [lineNumbers_eq, List.map_map, List.mem_map, List.mem_finRange, true_and]
    · rintro l ⟨n, rfl⟩ a ha
      exact h a (hrow _ _ _ ha)
    · rintro l ⟨n, rfl⟩ a ha
      obtain ⟨k, rfl⟩ := (mem_addrs _ _).mp ha
      exact ⟨_, ⟨k, rfl⟩, (mem_addrs _ _).mpr ⟨n, (column_addr tmp n k).trans (row_addr tmp k n).symm⟩⟩
  | idct8x8 src dst tmp =>
    refine two _ _ ?_ ?_ <;> simp only [lineNumbers_eq, List.map_map, List.mem_map, List.mem_finRange, true_and]
    · rintro l ⟨n, rfl⟩ a ha
      exact h a (hrow _ _ _ ha)
    · rintro l ⟨n, rfl⟩ a ha
      obtain ⟨k, rfl⟩ := (mem_addrs _ _).mp ha
      exact ⟨_, ⟨k, rfl⟩, (mem_addrs _ _).mpr ⟨n, (row_addr tmp n k).trans (column_addr tmp k n).symm⟩⟩

/-- A kernel command whose read set is written completes, in the state that its lines leave. -/
theorem exec_kernel_of_lines {i : Instr} {d : Dir} (hd : commandDir i = some d) {s : State} {m : Memory}
    {evs : List OverflowEvent} (hr : ∀ a ∈ readSet i, s.buf.isWritten a = true)
    (hm : runLines d (commandLines i) s.buf = some (m, evs)) : exec i s = .next (complete m evs (leaveWork s)) := by
  rw [exec_kernel hd]
  exact execLines_eq_next.mpr ⟨hr, m, evs, hm, rfl⟩

/-! ### One step -/

/-- What a step that answers a next state has done. -/
theorem step_next_cases {s t : State} (h : step s = .next t) :
    (s.phase = .idle ∧ nextInput s = none ∧ t = s) ∨
    (∃ x rest, hostMayMove s = true ∧ nextInput s = some (x, rest) ∧ applyInput x (takeInput s rest) = .next t) ∨
    (s.phase = .busy ∧ ∃ i, decode s.cur = .ok i ∧ exec i s = .next t) := by
  unfold step nextTurn at h
  rcases hm : hostMayMove s with _ | _
  · have hp : s.phase = .busy := by
      unfold hostMayMove at hm
      split at hm
      · simp at hm
      · assumption
    simp only [hm, hp, currentCommand] at h
    cases hd : decode s.cur with
    | error e => simp [hd] at h
    | ok i => exact .inr (.inr ⟨hp, i, rfl, by simpa [hd] using h⟩)
  · rcases hn : nextInput s with _ | ⟨x, rest⟩
    · simp only [hm, hn] at h
      cases hp : s.phase with
      | idle =>
        simp only [hp] at h
        exact .inl ⟨rfl, rfl, (Host.Outcome.next.inj h).symm⟩
      | busy =>
        simp only [hp, currentCommand] at h
        cases hd : decode s.cur with
        | error e => simp [hd] at h
        | ok i => exact .inr (.inr ⟨rfl, i, rfl, by simpa [hd] using h⟩)
    · simp only [hm, hn] at h
      exact .inr (.inl ⟨x, rest, rfl, rfl, h⟩)

/-- Where the host's side moves, a step is its next input taking effect. -/
theorem step_eq_applyInput {s : State} {x : Input} {rest : List Input} (hm : hostMayMove s = true)
    (hn : nextInput s = some (x, rest)) : step s = applyInput x (takeInput s rest) := by
  simp [step, nextTurn, hm, hn]

/-- Where a busy block's host side does not move, a step is the completion of the current command. -/
theorem step_eq_exec {s : State} {i : Instr} (hp : s.phase = .busy) (hd : decode s.cur = .ok i)
    (h : hostMayMove s = false ∨ nextInput s = none) : step s = exec i s := by
  have : nextTurn s = .sequencer := by
    unfold nextTurn
    rcases h with h | h
    · simp [h, hp]
    · cases hm : hostMayMove s <;> simp [h, hp]
  simp [step, this, currentCommand, hd]

end Sys2Proof.Machine
end

