-- ==== Sys2Proof/Laws/Passes.lean ====
section
/-! SUPPORT. What a pass of lines leaves, where its lines do not disturb one another (43_composition.md R219). -/

namespace Sys2Proof.Machine

/-- A line that writes eight distinct words: what it leaves at them. -/
theorem runLine_reads {d : Dir} {l : Line} {m : Memory} {x : Vec8} (hx : m.loadVec l.rd = some x)
    (hd : ∀ i j, l.wr.addr i = l.wr.addr j → i = j) :
    ∃ m', runLine d l m = some (m', overflowEvents liftTable d l.line l.pass 0 (kernelUses d x)) ∧
      (∀ i, m'.read (l.wr.addr i) = some (vecGet (kernel d x) i)) ∧ ∀ a, a ∉ l.wr.addrs → m'.read a = m.read a :=
  ⟨_, runLine_eq_some.mpr ⟨x, hx, rfl, rfl⟩, read_store m _ _ hd, fun a ha => read_store_of_notMem m _ _ a ha⟩

/-- A pass whose lines write distinct words, none of which a later line of the pass reads: what it leaves, and its events. -/
theorem runLines_pass (d : Dir) (mk : Fin 8 → Line) (x : Fin 8 → Vec8)
    (hself : ∀ n i j, (mk n).wr.addr i = (mk n).wr.addr j → i = j)
    (hwrite : ∀ n n' i j, n ≠ n' → (mk n).wr.addr i ≠ (mk n').wr.addr j)
    (hread : ∀ n n' i j, n ≠ n' → (mk n).wr.addr i ≠ (mk n').rd.addr j) :
    ∀ (ns : List (Fin 8)) (m : Memory), ns.Nodup → (∀ n ∈ ns, m.loadVec (mk n).rd = some (x n)) →
      ∃ m', runLines d (ns.map mk) m =
          some (m', ns.flatMap fun n => overflowEvents liftTable d (mk n).line (mk n).pass 0 (kernelUses d (x n))) ∧
        (∀ n ∈ ns, ∀ i, m'.read ((mk n).wr.addr i) = some (vecGet (kernel d (x n)) i)) ∧
        ∀ a, (∀ n ∈ ns, a ∉ (mk n).wr.addrs) → m'.read a = m.read a := by
  intro ns
  induction ns with
  | nil => exact fun m _ _ => ⟨m, rfl, by simp, fun _ _ => rfl⟩
  | cons n ns ih =>
    intro m hnd hx
    obtain ⟨hn, hnd⟩ := List.nodup_cons.mp hnd
    obtain ⟨m1, h1, r1, f1⟩ := runLine_reads (d := d) (hx n List.mem_cons_self) (hself n)
    have hx1 : ∀ n' ∈ ns, m1.loadVec (mk n').rd = some (x n') := by
      intro n' hn'
      refine (loadVec_eq_some _ _ _).mpr fun j => ?_
      rw [f1 _ fun hmem => ?_]
      · exact (loadVec_eq_some _ _ _).mp (hx n' (List.mem_cons_of_mem _ hn')) j
      · obtain ⟨i, hi⟩ := (mem_addrs _ _).mp hmem
        exact hread n n' i j (fun e => hn (e ▸ hn')) hi.symm
    obtain ⟨m2, h2, r2, f2⟩ := ih m1 hnd hx1
    refine ⟨m2, ?_, ?_, ?_⟩
    · rw [List.map_cons, List.flatMap_cons]
      exact runLines_cons_eq_some.mpr ⟨m1, _, _, h1, h2, rfl⟩
    · intro n' hn' i
      rcases List.mem_cons.mp hn' with rfl | hn'
      · rw [f2 _ fun n'' hn'' hmem => ?_]
        · exact r1 i
        · obtain ⟨j, hj⟩ := (mem_addrs _ _).mp hmem
          exact hwrite n' n'' i j (fun e => hn (e ▸ hn'')) hj
      · exact r2 n' hn' i
    · intro a ha
      rw [f2 a fun n' hn' => ha n' (List.mem_cons_of_mem _ hn'), f1 a (ha n List.mem_cons_self)]

/-- Row n's words are distinct, and so are those of different rows. -/
theorem row_addr_inj (base : Addr) {n n' i j : Fin 8}
    (h : (row base (BitVec.ofNat 3 n.val)).addr i = (row base (BitVec.ofNat 3 n'.val)).addr j) : n = n' ∧ i = j := by
  rw [row_addr, row_addr] at h
  exact blockAddr_inj h

/-- Column n's words are distinct, and so are those of different columns. -/
theorem column_addr_inj (base : Addr) {n n' i j : Fin 8}
    (h : (column base (BitVec.ofNat 3 n.val)).addr i = (column base (BitVec.ofNat 3 n'.val)).addr j) :
    n = n' ∧ i = j := by
  rw [column_addr, column_addr] at h
  exact (blockAddr_inj h).symm

theorem row_mem_region (base : Addr) (n i : Fin 8) : (row base (BitVec.ofNat 3 n.val)).addr i ∈ region base := by
  rw [row_addr]
  exact blockAddr_mem_region base n i

theorem column_mem_region (base : Addr) (n i : Fin 8) : (column base (BitVec.ofNat 3 n.val)).addr i ∈ region base := by
  rw [column_addr]
  exact blockAddr_mem_region base i n

end Sys2Proof.Machine
end

