-- ==== Sys2Proof/Laws/PerInstr.lean ====
section
/-! SUPPORT. Laws of every command as syntax, one lemma per command. -/

namespace Sys2Proof.Laws.EncodeRsvZero

/-- RSV is 0 in the word of every command (30_encoding.md R91). -/
def Statement (i : Instr) : Prop := rsvField (encode i) = 0

theorem nop : Statement .nop := rfl

theorem rsh (src dst : Addr) (b : BitVec 5) : Statement (.rsh src dst b) := rsvField_packFields _ _ _ _

theorem fdct8 (src dst stride : Addr) : Statement (.fdct8 src dst stride) := rsvField_packFields _ _ _ _

theorem idct8 (src dst stride : Addr) : Statement (.idct8 src dst stride) := rsvField_packFields _ _ _ _

theorem fdct8x8 (src dst tmp : Addr) : Statement (.fdct8x8 src dst tmp) := rsvField_packFields _ _ _ _

theorem idct8x8 (src dst tmp : Addr) : Statement (.idct8x8 src dst tmp) := rsvField_packFields _ _ _ _

end Sys2Proof.Laws.EncodeRsvZero
end

