-- ==== Sys2Proof/Laws/Port.lean ====
section
/-! SUPPORT. What one host input can do to the state, and the host's word offsets (10_state.md R26, 20_memory.md R62). -/

namespace Sys2Proof.Machine

/-- The offset of a BUF word is a BUF offset, and leads back to it. -/
theorem bufAddr_offset (a : Addr) : isBufOffset (BitVec.ofNat 9 (0x100 + a.toNat)) = true ∧
    bufAddr (BitVec.ofNat 9 (0x100 + a.toNat)) = a := by
  have hlt := a.isLt
  have hn : (BitVec.ofNat 9 (0x100 + a.toNat)).toNat = 2 ^ 8 + a.toNat := by simp; omega
  constructor
  · unfold isBufOffset BitVec.getLsbD
    rw [hn, Nat.testBit_two_pow_add_eq, Nat.testBit_lt_two_pow (by simpa using hlt)]
    rfl
  · refine BitVec.eq_of_toNat_eq ?_
    rw [bufAddr, BitVec.toNat_setWidth, hn]
    simp
    omega

theorem isBufOffset_of_lt {off : Offset} (h : off.toNat < 0x100) : isBufOffset off = false :=
  Nat.testBit_lt_two_pow (by simpa using h)

/-- What a host write to a register offset does. -/
theorem writeRegister_cases (off : Offset) (v : Word) (s : State) :
    (off = 0x000 ∧ writeRegister off v s = issueCommand v s) ∨
    (off = 0x001 ∧ writeRegister off v s = clearEvents v s) ∨
    (off = 0x002 ∧ writeRegister off v s = { s with ctrl := ctrlOfWord v }) ∨
    (off ≠ 0x000 ∧ off ≠ 0x001 ∧ off ≠ 0x002 ∧ writeRegister off v s = s) := by
  unfold writeRegister
  split_ifs with h1 h2 h3
  · exact .inl ⟨h1, rfl⟩
  · exact .inr (.inl ⟨h2, rfl⟩)
  · exact .inr (.inr (.inl ⟨h3, rfl⟩))
  · exact .inr (.inr (.inr ⟨h1, h2, h3, rfl⟩))

theorem acceptCommand_of_legal {w : Word} (h : isLegal w = true) (s : State) :
    acceptCommand w s = { s with cmd := w, status := { s.status with done := false }, cur := w, chk := s.ctrl.ovfChk,
                                 phase := .busy, latLeft := Config.latency s.draws, draws := s.draws + 1 } := by
  obtain ⟨i, hi⟩ := (isLegal_iff w).mp h
  simp [acceptCommand, hi]

theorem acceptCommand_of_illegal {w : Word} (h : isLegal w = false) (s : State) :
    acceptCommand w s = { s with cmd := w, status := { s.status with done := false, ill := true } } := by
  obtain ⟨e, he⟩ := (not_isLegal_iff w).mp h
  simp [acceptCommand, he, raise]

/-- What an input that answers a next state has done. -/
theorem applyInput_next_cases {x : Input} {s t : State} (h : applyInput x s = .next t) :
    (∃ off v, x = .read off ∧ t = { s with rdata := some v }) ∨
    (∃ off v, x = .write off v ∧ isBufOffset off = true ∧ t = { s with buf := s.buf.write (bufAddr off) v }) ∨
    (∃ w, x = .write 0x000 w ∧ t = issueCommand w s) ∨
    (∃ v, x = .write 0x001 v ∧ t = clearEvents v s) ∨
    (∃ v, x = .write 0x002 v ∧ t = { s with ctrl := ctrlOfWord v }) ∨
    (∃ off v, x = .write off v ∧ isBufOffset off = false ∧ t = s) ∨
    (x = .reset ∧ t = applyReset s) := by
  cases x with
  | read off =>
    simp only [applyInput, hostRead] at h
    split at h
    · split at h
      · exact .inl ⟨off, _, rfl, (Host.Outcome.next.inj h).symm⟩
      · simp at h
    · exact .inl ⟨off, _, rfl, (Host.Outcome.next.inj h).symm⟩
  | write off v =>
    right
    simp only [applyInput, hostWrite] at h
    split at h
    · exact .inl ⟨off, v, rfl, ‹_›, (Host.Outcome.next.inj h).symm⟩
    · right
      rename_i hnb
      obtain rfl := (Host.Outcome.next.inj h).symm
      rcases writeRegister_cases off v s with ⟨rfl, h⟩ | ⟨rfl, h⟩ | ⟨rfl, h⟩ | ⟨_, _, _, h⟩
      · exact .inl ⟨v, rfl, h⟩
      · exact .inr (.inl ⟨v, rfl, h⟩)
      · exact .inr (.inr (.inl ⟨v, rfl, h⟩))
      · exact .inr (.inr (.inr (.inl ⟨off, v, rfl, by simpa using hnb, h⟩)))
  | subWord => simp [applyInput] at h
  | reset => exact .inr (.inr (.inr (.inr (.inr (.inr ⟨rfl, (Host.Outcome.next.inj h).symm⟩)))))

end Sys2Proof.Machine
end

