-- ==== Sys2Proof/Laws/Shift.lean ====
section
/-! SUPPORT. The shifts over integers (00_scope.md R9). -/

namespace Sys2Proof.Machine

/-- `asr` is the floor of a division (00_scope.md R9). -/
theorem toInt_asr (v : Word) (n : Nat) : (asr v n).toInt = v.toInt / 2 ^ n := by
  simp [asr, BitVec.toInt_sshiftRight, Int.shiftRight_eq_div_pow]

theorem toNat_lsr (v : Word) (n : Nat) : (lsr v n).toNat = v.toNat / 2 ^ n := by
  simp [lsr, Nat.shiftRight_eq_div_pow]

end Sys2Proof.Machine
end

