-- ==== Sys2Proof/Laws/Trace.lean ====
section
/-! SUPPORT. What any lines leave, disturbing one another or not: the memories between them (43_composition.md R219). -/

namespace Sys2Proof.Machine

/-- One line from one memory to the next, in words. -/
theorem runLine_lineRun {d : Dir} {l : Line} {m m' : Memory} {ev : List OverflowEvent} (h : runLine d l m = some (m', ev))
    (hd : ∀ i j, l.wr.addr i = l.wr.addr j → i = j) :
    ∃ x : Fin 8 → Word, LineRun (kernel d) l.rd.addr l.wr.addr x m.read m'.read ∧
      ev = overflowEvents liftTable d l.line l.pass 0 (kernelUses d (vecOf x)) := by
  obtain ⟨x, hx, rfl, rfl⟩ := runLine_eq_some.mp h
  refine ⟨vecGet x, ⟨(loadVec_eq_some _ _ _).mp hx, fun i => ?_, fun a ha => ?_⟩, ?_⟩
  · rw [vecOf_vecGet]
    exact read_store _ _ _ hd i
  · refine read_store_of_notMem _ _ _ _ fun hm => ?_
    obtain ⟨i, hi⟩ := (mem_addrs _ _).mp hm
    exact ha i hi
  · rw [vecOf_vecGet]

/-- Lines that run to the end: the memories between them, from the first to the last, and the vectors they read. -/
theorem runLines_trace {d : Dir} (mk : Nat → Line) (hd : ∀ n i j, (mk n).wr.addr i = (mk n).wr.addr j → i = j) :
    ∀ (k n : Nat) (m m' : Memory) (ev : List OverflowEvent),
      runLines d ((List.range' n k).map mk) m = some (m', ev) →
      ∃ (p : Nat → Addr → Option Word) (x : Nat → Fin 8 → Word), p n = m.read ∧ p (n + k) = m'.read ∧
        (∀ i, n ≤ i → i < n + k → LineRun (kernel d) (mk i).rd.addr (mk i).wr.addr (x i) (p i) (p (i + 1))) ∧
        ev = (List.range' n k).flatMap fun i =>
          overflowEvents liftTable d (mk i).line (mk i).pass 0 (kernelUses d (vecOf (x i))) := by
  intro k
  induction k with
  | zero =>
    intro n m m' ev h
    obtain ⟨rfl, rfl⟩ : m = m' ∧ ([] : List OverflowEvent) = ev := by simpa using h
    exact ⟨fun _ => m.read, fun _ _ => 0, rfl, rfl, fun i h1 h2 => by omega, rfl⟩
  | succ k ih =>
    intro n m m' ev h
    rw [List.range'_succ, List.map_cons] at h
    obtain ⟨m1, ev1, ev2, h1, h2, rfl⟩ := runLines_cons_eq_some.mp h
    obtain ⟨x0, hl, rfl⟩ := runLine_lineRun h1 (hd n)
    obtain ⟨p, x, hp0, hpk, hl', rfl⟩ := ih (n + 1) m1 m' ev2 h2
    refine ⟨fun i => if i = n then m.read else p i, fun i => if i = n then x0 else x i, by simp, ?_, fun i hi1 hi2 => ?_, ?_⟩
    · dsimp only
      rw [if_neg (by omega), ← hpk, Nat.add_right_comm, Nat.add_assoc]
    · rcases eq_or_ne i n with rfl | hne
      · simpa [hp0] using hl
      · simpa [hne, show i + 1 ≠ n by omega] using hl' i (by omega) (by omega)
    · rw [List.range'_succ, List.flatMap_cons]
      dsimp only
      rw [if_pos rfl]
      congr 1
      refine List.flatMap_congr fun i hi => ?_
      have := List.mem_range'_1.mp hi
      rw [if_neg (by omega)]

/-- The eight lines of a pass, whatever their regions overlap. -/
theorem runLines_passRun {d : Dir} {pass : Bool} (rd wr : Fin 8 → Strided)
    (hd : ∀ n i j, (wr n).addr i = (wr n).addr j → i = j) {m m' : Memory} {ev : List OverflowEvent}
    (h : runLines d ((List.finRange 8).map fun n => ⟨pass, BitVec.ofNat 3 n.val, rd n, wr n⟩) m = some (m', ev)) :
    ∃ (p : Nat → Addr → Option Word) (x : Block), p 0 = m.read ∧ p 8 = m'.read ∧
      PassRun (kernel d) (fun n => (rd n).addr) (fun n => (wr n).addr) x p ∧ ev = passEvents d pass x := by
  let f : Nat → Fin 8 := Fin.ofNat 8
  have hf : ∀ n : Fin 8, f n.val = n := fun n => Fin.ofNat_val_eq_self n
  have hlist : (List.range' 0 8).map f = List.finRange 8 := by decide
  rw [← hlist, List.map_map] at h
  obtain ⟨p, x, h0, h8, hl, rfl⟩ := runLines_trace _ (fun n => hd (f n)) 8 0 m m' ev h
  refine ⟨p, fun n => x n.val, h0, h8, fun n => ?_, ?_⟩
  · simpa [hf] using hl n.val (by omega) (by omega)
  · rw [passEvents, ← hlist, List.flatMap_map]
    refine List.flatMap_congr fun i hi => ?_
    have hv : (f i).val = i := Nat.mod_eq_of_lt (by simpa using List.mem_range'_1.mp hi)
    simp only [Function.comp_apply, hv]

end Sys2Proof.Machine
end

