-- ==== Sys2Proof/Tests/Slice0.lean ====
section
/-! SUPPORT. Small tests, with expected values from 30_encoding.md R100 and 95_test_vectors.md, and for every statement with
hypotheses a witness that meets them. -/

namespace Sys2Proof.Tests

open Sys2Proof.Machine

set_option Elab.async false

/-! ### Helpers -/

/-- Words at consecutive addresses, lowest first. -/
def cells (base : Nat) (vs : List Int) : Memory := vs.zipIdx.map fun v => (base + v.2, BitVec.ofInt 32 v.1)

/-- The idle state after reset with BUF words written. -/
def withBuf (m : Memory) : State := { State.reset with buf := m }

/-- A state in which the command word `w` has been accepted, with room for one host move. -/
def running (w : Word) (m : Memory) : State :=
  { State.reset with buf := m, cmd := w, cur := w, phase := .busy, latLeft := 1 }

/-- The BUF words that an outcome's next state has at the addresses; none without a next state. -/
def wordsAfter (o : Host.Outcome State Fault Refusal) (as : List Addr) : Option (List (Option Word)) :=
  match o with
  | .next t => some (as.map t.buf.read)
  | .fault _ => none
  | .refused _ => none

/-- Eight consecutive addresses. -/
def eight (base : Addr) : List Addr := (contiguous base).addrs

/-- What a list of signed words reads as. -/
def words (vs : List Int) : Option (List (Option Word)) := some (vs.map fun v => some (BitVec.ofInt 32 v))

/-- STATUS, OVFINFO and OVFVAL of an outcome's next state. -/
def reportAfter (o : Host.Outcome State Fault Refusal) : Option (Word × Word × Word) :=
  match o with
  | .next t => some (statusWord t, ovfInfoWord t.ovfInfo, t.ovfVal)
  | .fault _ => none
  | .refused _ => none

/-- Does an outcome have a next state? -/
def isNext (o : Host.Outcome State Fault Refusal) : Bool :=
  match o with
  | .next _ => true
  | .fault _ => false
  | .refused _ => false

/-- The next state of an outcome, if it has one. -/
def stateAfter (o : Host.Outcome State Fault Refusal) : State :=
  match o with
  | .next t => t
  | .fault _ => State.reset
  | .refused _ => State.reset

theorem eq_next {o : Host.Outcome State Fault Refusal} (h : isNext o = true) : o = .next (stateAfter o) := by
  cases o with
  | next t => rfl
  | fault f => simp [isNext] at h
  | refused r => simp [isNext] at h

/-- The scaled block of 95_test_vectors.md L2.5. -/
def pixels : List Int :=
    [1280, 736, -784, -976, -1888, -832, 768, 848]
    ++ [1088, -928, -192, -192, 0, 416, -800, 288]
    ++ [576, 560, 1552, 1376, 1360, 1232, -368, 240]
    ++ [448, 864, 1440, 1248, 1184, 672, -656, 112]
    ++ [592, 528, -176, 384, 224, -1088, -1040, -432]
    ++ [1056, 880, 1152, 1168, 544, 512, -528, 256]
    ++ [1312, 592, 960, 1120, -32, 16, -496, 1280]
    ++ [1392, 832, 112, 896, -112, -1504, 144, 1584]

/-- The coefficients of 95_test_vectors.md L2.5. -/
def coefficients : List Int :=
    [2850, -1108, -779, -1320, -1150, 1448, 1044, -523]
    ++ [2236, -701, -813, 281, 221, -9, 130, 109]
    ++ [755, 255, 3131, 1403, 1421, -92, -162, 368]
    ++ [-890, 1238, -276, 276, -478, -518, -237, -161]
    ++ [1706, -928, 307, -448, -15, -776, -583, 88]
    ++ [-160, 134, 860, 277, 38, -65, -4, 40]
    ++ [772, 481, -474, -384, -1530, 230, -486, -464]
    ++ [-536, 72, -137, -290, 151, -308, -22, -15]

/-! ### Well-formedness: the one check, refused and met -/

theorem test_wf_refuses_zero_shift : Instr.wf (.rsh 0x00 0x01 0) = false := by decide

theorem test_wf_accepts_shift_31 : Instr.wf (.rsh 0x00 0x01 31) = true := by decide

/-! ### Decoding: words written out from 30_encoding.md R91, R95 (95_test_vectors.md L2.7) -/

theorem test_decode_nop : decode 0b0000_0000_00000000_00000000_00000000#32 = .ok .nop := by decide

theorem test_decode_rsh : decode 0b0001_0000_00000100_00000101_000_11111#32 = .ok (.rsh 0x04 0x05 31) := by decide

theorem test_decode_fdct8 : decode 0b0010_0000_00000111_01000000_11111111#32 = .ok (.fdct8 0x07 0x40 255) := by decide

theorem test_decode_idct8 : decode 0b0011_0000_01000000_00000000_00000001#32 = .ok (.idct8 0x40 0x00 1) := by decide

theorem test_decode_fdct8x8 : decode 0b0100_0000_00000000_10000000_01000000#32 = .ok (.fdct8x8 0x00 0x80 0x40) := by
  decide

theorem test_decode_idct8x8 : decode 0b0101_0000_10000000_11000000_01000000#32 = .ok (.idct8x8 0x80 0xC0 0x40) := by
  decide

theorem test_decode_rejects : [0x00000001#32, 0x00010000#32, 0x10000100#32, 0x10000120#32, 0x100000FF#32, 0x21000000#32,
    0x2F004001#32, 0x60000000#32, 0xF0000000#32, 0xFFFFFFFF#32].map decode =
    [.error .nopOperand, .error .nopOperand, .error .rshShiftZero, .error .rshHighBits, .error .rshHighBits,
     .error .reservedField, .error .reservedField, .error .reservedOpcode, .error .reservedOpcode,
     .error .reservedField] := by decide

theorem test_encode : [Instr.rsh 0x04 0x05 31, .fdct8 0x05 0x20 0, .idct8x8 0x80 0xC0 0x40].map encode =
    [0x1004051F#32, 0x20052000#32, 0x5080C040#32] := by decide

theorem test_table_word : decodeTableWord 32 0x20004001 = some (.fdct8 0x00 0x40 1) := by decide

/-! ### The shifts, the lifting operation and the kernels (95_test_vectors.md L2.1 to L2.4) -/

theorem test_rshift : [(-3, 1), (5, 2), (-8, 2), (-7, 3), (2147483647, 2), (1431655766, 31)].map
    (fun p : Int × Nat => (rshift (BitVec.ofInt 32 p.1) p.2).toInt) = [-1, 1, -2, 0, -536870912, -1] := by decide

theorem test_lift : [((0 : Fin 15), (2147483647 : Int)), (1, -2147483648), (5, 98254), (8, 1000), (1, -1)].map
    (fun p => (lift (liftTable p.1) (BitVec.ofInt 32 p.2)).toInt) = [-65536, -131072, -65420, 914, -1] := by decide

theorem test_lift_check_bounds : [((3 : Fin 15), (98080 : Int)), (3, 98081), (3, -98081), (3, -98082)].map
    (fun p => liftOverflows (liftTable p.1) (BitVec.ofInt 32 p.2)) = [false, true, false, true] := by decide

theorem test_fdct : fdct liftTable ⟨0, 1000, 0, 0, 0, 0, 0, 0⟩ =
    ⟨354, 415, 191, -97, -354, -490, -462, -277⟩ := by decide +kernel

theorem test_idct : idct liftTable ⟨0, 0, 0, 0, 0, 0, 1000, 0⟩ =
    ⟨191, -462, 462, -192, -191, 462, -462, 191⟩ := by decide +kernel

/-! ### One step of every command (95_test_vectors.md L2.1, L2.3.5, L2.4, L2.5, L2.8) -/

/-- L2.8 row 1: STATUS after a NOP is 0x00000002. -/
theorem test_step_nop : reportAfter (step (State.reset.withFetchWord 32 0x00000000)) = some (0x00000002#32, 0#32, 0#32) := by
  decide +kernel

/-- L2.1: `rsh 0x07, 0x07, 2`, source and destination the same. -/
theorem test_step_rsh : wordsAfter (step ((withBuf (cells 7 [-5])).withFetchWord 32 0x10070702)) [0x07] = words [-1] := by
  decide +kernel

/-- L2.3.5: `fdct8 0x40, 0x07, 255`, stride -1. -/
theorem test_step_fdct8 :
    wordsAfter (step ((withBuf (cells 0 [700, 600, 500, 400, 300, 200, 100, 0])).withFetchWord 32 0x200740FF)) (eight 0x40) =
      words [990, -644, 0, -68, 0, -20, 0, -5] := by decide +kernel

/-- L2.8: the overflow of lifting step 5, with the check on. -/
theorem test_step_fdct8_overflow :
    reportAfter (step (State.withFetchWord
      { withBuf (cells 0 [37600, 37600, -37600, -37600, -37600, -37600, 37600, 37600]) with ctrl := ⟨true, false⟩ }
      32 0x20000801)) = some (0x00000012#32, 0x80000005#32, 98254#32) := by decide +kernel

/-- L2.4: `idct8 0x10, 0x40, 128`, in which later writes win. -/
theorem test_step_idct8 :
    wordsAfter (step ((withBuf (cells 0x40 [0, 2000, 0, 0, 0, 0, 0, 0])).withFetchWord 32 0x30401080)) [0x10, 0x90] =
      words [-831, -981] := by decide +kernel

/-- L3 P5: the inverse's event is step 9. -/
theorem test_step_idct8_overflow :
    reportAfter (step (State.withFetchWord
      { withBuf (cells 8 [0, 0, 98254, 0, 0, 0, 90373, 0]) with ctrl := ⟨true, true⟩ } 32 0x30081801)) =
      some (0x00000012#32, 0x80000019#32, 98254#32) := by decide +kernel

/-- L2.5: line 1 of the coefficients, `fdct8x8 0x80, 0x00, 0x40`. -/
theorem test_step_fdct8x8 :
    wordsAfter (step ((withBuf (cells 0 pixels)).withFetchWord 32 0x40008040)) (eight 0x88) =
      words [2236, -701, -813, 281, 221, -9, 130, 109] := by decide +kernel

/-- L2.6: `fdct8x8 0x40, 0x00, 0x40`, dst = tmp: the first line is L2.5's, and the second is not. -/
theorem test_step_fdct8x8_overlap :
    wordsAfter (step ((withBuf (cells 0 pixels)).withFetchWord 32 0x40004040)) (eight 0x40) =
      words [2850, -1108, -779, -1320, -1150, 1448, 1044, -523] ∧
    wordsAfter (step ((withBuf (cells 0 pixels)).withFetchWord 32 0x40004040)) (eight 0x48) ≠
      words [2236, -701, -813, 281, 221, -9, 130, 109] := by decide +kernel

/-- L2.6: `idct8x8 0x40, 0x80, 0x40`, dst = tmp: row 1 of the reconstruction is the input's. -/
theorem test_step_idct8x8 :
    wordsAfter (step ((withBuf (cells 0x80 coefficients)).withFetchWord 32 0x50804040)) (eight 0x48) =
      words [1088, -928, -192, -192, 0, 416, -800, 288] := by decide +kernel

/-- L2.6: `idct8x8 0xC0, 0x80, 0x80`, tmp = src: not the inverse. -/
theorem test_step_idct8x8_overlap :
    isNext (step ((withBuf (cells 0x80 coefficients)).withFetchWord 32 0x5080C080)) = true ∧
    wordsAfter (step ((withBuf (cells 0x80 coefficients)).withFetchWord 32 0x5080C080)) (eight 0xC8) ≠
      words [1088, -928, -192, -192, 0, 416, -800, 288] := by decide +kernel

/-! ### The port (95_test_vectors.md L2.8) -/

/-- L2.8: an illegal word sets ILL. -/
theorem test_port_illegal : reportAfter (step { State.reset with inputs := [.write 0x000 0x60000000#32] }) =
    some (0x00000004#32, 0#32, 0#32) := by decide +kernel

/-- L3 P4 run (b): the word is dropped, with BUSYERR (STATUS while still busy: BUSY and BUSYERR). -/
theorem test_port_busy_error :
    reportAfter (step { running 0x20004001#32 [] with inputs := [.write 0x000 0x60000000#32] }) =
      some (0x00000009#32, 0#32, 0#32) := by decide +kernel

/-- A host read of LIFT[0] and of LIFT[14]: M and S of 41_forward.md R146 in the layout of 10_state.md R35. -/
theorem test_port_read_lift :
    [0x010#9, 0x01E#9].map (fun off => (stateAfter (applyInput (.read off) State.reset)).rdata) =
      [some (13573 + 15 * 65536), some (2485 + 13 * 65536)] := by decide

/-! ### Witnesses: states and operands that meet the hypotheses of the statements, at the bounds of their ranges -/

/-- A running `rsh 0x01, 0x00, 1` with its source written, and inputs pending. -/
def runningRsh (inputs : List Input) : State := { running 0x10000101#32 (cells 0 [-3]) with inputs := inputs }

/-- The block whose words are a list's, by rows. -/
def blockOf (vs : List Int) : Block := fun r c => BitVec.ofInt 32 (vs.getD (8 * r.val + c.val) 0)

theorem witness_DecodeOfEncodeIsIdentity :
    (Instr.rsh 0xFF 0x00 1).WellFormed ∧ (Instr.rsh 0x00 0xFF 31).WellFormed ∧ (Instr.fdct8 0 0 0).WellFormed := by decide

theorem witness_LegalWordIsItsTermsWord :
    decode 0x5080C040#32 = .ok (.idct8x8 0x80 0xC0 0x40) ∧ decode 0x1000001F#32 = .ok (.rsh 0 0 31) := by decide

theorem witness_RshiftValue : ∀ b ∈ [1, 31], 1 ≤ b ∧ b ≤ 31 := by decide

/-- The lowest in-band value at b = 31, and the highest at b = 1. -/
theorem witness_RshiftRoundsTowardZero :
    (-(2 ^ (32 - 31)) ≤ (BitVec.ofInt 32 (-2)).toInt ∧ (BitVec.ofInt 32 (-2)).toInt < 2 ^ (32 - 31)) ∧
    (-(2 ^ (32 - 1)) ≤ (2147483647#32).toInt ∧ (2147483647#32).toInt < 2 ^ (32 - 1)) := by decide +kernel

/-- The lowest value above the band, at b = 2, whose sum does not wrap, and values whose sum does. -/
theorem witness_RshiftWrapsAboveTheBand :
    2 ^ (32 - 2) ≤ (0x40000000#32).toInt ∧ ¬ 2 ^ 31 ≤ (lsr 0x40000000#32 (32 - 2)).toNat + (0x40000000#32).toInt ∧
    2 ^ (32 - 2) ≤ (0x7FFFFFFF#32).toInt ∧ 2 ^ 31 ≤ (lsr 0x7FFFFFFF#32 (32 - 2)).toNat + (0x7FFFFFFF#32).toInt ∧
    2 ^ 31 ≤ (lsr 0x55555556#32 (32 - 31)).toNat + (0x55555556#32).toInt := by decide +kernel

/-- Oddness at the least value inside the open band of b = 1, order at the band's ends of b = 31, and the zero range at b = 5. -/
theorem witness_RshiftOddAndMonotone :
    (-(2 ^ (32 - 1)) < (0x80000001#32).toInt ∧ (0x80000001#32).toInt < 2 ^ (32 - 1)) ∧
    (-(2 ^ (32 - 31)) ≤ (BitVec.ofInt 32 (-2)).toInt ∧ (BitVec.ofInt 32 (-2)).toInt ≤ (1#32).toInt ∧
      (1#32).toInt < 2 ^ (32 - 31)) ∧
    (-(2 ^ (32 - 5)) ≤ (BitVec.ofInt 32 (-31)).toInt ∧ (BitVec.ofInt 32 (-31)).toInt < 2 ^ (32 - 5) ∧
      -(2 ^ 5) < (BitVec.ofInt 32 (-31)).toInt ∧ (BitVec.ofInt 32 (-31)).toInt < 2 ^ 5) := by decide +kernel

theorem witness_LiftValue : (liftTable 0).s ≠ 0 ∧ (LiftConst.mk 0xFFFF 31).s ≠ 0 ∧
    -(2 ^ 31) ≤ (98080#32).toInt * ((liftTable 3).m.toNat : Int) + 2 ^ ((liftTable 3).s.toNat - 1) ∧
    (98080#32).toInt * ((liftTable 3).m.toNat : Int) + 2 ^ ((liftTable 3).s.toNat - 1) < 2 ^ 31 := by decide +kernel

/-- The largest operand that the doubled multiplier of LIFT[8] lets through. -/
theorem witness_LiftThirteenBitsAsFourteen :
    (7489#16).toNat < 2 ^ 15 ∧ liftOverflows ⟨7489#16 + 7489#16, 14⟩ 143375#32 = false := by decide +kernel

theorem witness_InverseMirrorsLiftingSteps : ∀ j ∈ [0, 14], j < 15 := by decide

/-- The corner of the range that 95_test_vectors.md L2.3.4 gives. -/
theorem witness_ForwardSafeRange : ∃ x : Vec8, (∀ i, within 37532 (vecGet x i)) ∧ ∃ u, u ∈ fdctUses liftTable x := by
  refine ⟨⟨37532, 37532, -37532, -37532, -37532, -37532, 37532, 37532⟩, ?_, List.exists_mem_of_ne_nil _ (by decide +kernel)⟩
  unfold within
  decide +kernel

theorem witness_BlockSafeRange : ∀ r c, within 13264 (blockOf (List.replicate 32 13264 ++ List.replicate 32 (-13264)) r c) := by
  unfold within
  decide +kernel

/-- Idle; busy, with words inside and outside the write set; and the bounds of the constant offsets. -/
theorem witness_ResetEffect : State.reset.phase = .idle ∧
    (running 0x5080C040#32 []).phase = .busy ∧ decode (running 0x5080C040#32 []).cur = .ok (.idct8x8 0x80 0xC0 0x40) ∧
    (0x40#8) ∈ writeSet (.idct8x8 0x80 0xC0 0x40) ∧ (0xFF#8) ∈ writeSet (.idct8x8 0x80 0xC0 0x40) ∧
    (0xBF#8) ∉ writeSet (.idct8x8 0x80 0xC0 0x40) ∧
    ∀ off ∈ [0x005#9, 0x0FF#9], 0x005 ≤ off.toNat ∧ off.toNat < 0x100 := by decide +kernel

theorem witness_ResetAbandonsHeldAccess :
    (runningRsh [.read 0x100, .reset, .read 0x001]).phase = .busy ∧ 0 < (runningRsh [.read 0x100, .reset]).latLeft ∧
    isHeld (.read 0x100) = true ∧ decode (runningRsh [.read 0x100, .reset]).cur = .ok (.rsh 0x00 0x01 1) ∧
    (0x01#8) ∈ writeSet (.rsh 0x00 0x01 1) ∧ (0x00#8) ∉ writeSet (.rsh 0x00 0x01 1) := by decide +kernel

theorem witness_ReadOfRegister :
    (∀ off ∈ [0x000#9, 0x001#9, 0x002#9, 0x003#9, 0x004#9, 0x005#9, 0x006#9], off.toNat < 0x100) ∧
    ((0x010#9).toNat = 0x010 + (0 : Fin 15).val ∧ (0x01E#9).toNat = 0x010 + (14 : Fin 15).val) ∧
    (∀ off ∈ [0x010#9, 0x01E#9], off.toNat < 0x100) ∧
    (∀ off ∈ [0x007#9, 0x00F#9], 0x007 ≤ off.toNat ∧ off.toNat ≤ 0x00F ∧ off.toNat < 0x100) ∧
    ∀ off ∈ [0x01F#9, 0x0FF#9], 0x01F ≤ off.toNat ∧ off.toNat < 0x100 := by decide

theorem witness_ReadOfBuf : (withBuf (cells 0 [-3])).phase = .idle ∧
    (withBuf (cells 0 [-3])).buf.read 0x00 = some (BitVec.ofInt 32 (-3)) ∧
    (withBuf (cells 255 [7])).buf.read 0xFF = some 7 := by decide

theorem witness_WriteOfBuf : (withBuf (cells 0 [-3])).phase = .idle ∧ (0xFF#8) ≠ 0x00#8 := by decide

theorem witness_StepTakesTheNextInput :
    (State.reset.phase = .idle ∧ State.reset.inputs = []) ∧
    ({ State.reset with inputs := [.read 0x100] } : State).phase = .idle ∧
    ((runningRsh [.read 0x001]).phase = .busy ∧ 0 < (runningRsh [.read 0x001]).latLeft ∧
      isHeld (.read 0x001) = false) := by decide

theorem witness_BufAccessIsHeldWhileBusy :
    (runningRsh [.write 0x1FF 5]).phase = .busy ∧ (runningRsh [.write 0x1FF 5]).inputs = .write 0x1FF 5 :: [] ∧
    isHeld (.write 0x1FF 5) = true ∧ ([] : List Input).head? ≠ some .reset ∧
    decode (runningRsh [.write 0x1FF 5]).cur = .ok (.rsh 0x00 0x01 1) ∧
    ∃ t, step (runningRsh [.write 0x1FF 5]) = .next t :=
  ⟨by decide, by decide, by decide, by decide, by decide, _, eq_next (by decide +kernel)⟩

theorem witness_StatusWriteOneToClear : (0x00000010#32).getLsbD 4 = true ∧ (0xFFFFFFEF#32).getLsbD 4 = false := by decide

theorem witness_ControlWrite : State.reset.phase = .idle ∧ isLegal 0x1004051F#32 = true := by decide

theorem witness_ReadOnlyWritesAreIgnored : ∀ off ∈ [0x003#9, 0x0FF#9], 0x003 ≤ off.toNat ∧ off.toNat < 0x100 := by decide

theorem witness_LegalCommandIsAccepted : State.reset.phase = .idle ∧ isLegal 0x00000000#32 = true ∧
    isLegal 0x50FFFFFF#32 = true := by decide

theorem witness_IllegalWordSetsIll : State.reset.phase = .idle ∧ isLegal 0x00000001#32 = false ∧
    isLegal 0x60000000#32 = false := by decide

theorem witness_BusyWriteSetsBusyErr : (runningRsh []).phase = .busy := by decide

theorem witness_IrqLevel : State.reset ≠ withBuf (cells 0 [1]) ∧ State.reset.ctrl = (withBuf (cells 0 [1])).ctrl ∧
    State.reset.status = (withBuf (cells 0 [1])).status := by decide

/-- All four sticky bits go from 1 to 0 by one write. -/
theorem witness_StickyBitsStay : ∃ s t : State, step s = .next t ∧
    (s.status.done = true ∧ t.status.done = false) ∧ (s.status.ill = true ∧ t.status.ill = false) ∧
    (s.status.busyErr = true ∧ t.status.busyErr = false) ∧ (s.status.ovf = true ∧ t.status.ovf = false) :=
  ⟨{ State.reset with status := ⟨true, true, true, true⟩, inputs := [.write 0x001 0x0000001E#32] }, _,
    eq_next (by decide +kernel), by decide +kernel⟩

theorem witness_RunningCommandIsUndisturbed : ∃ s t : State, s.phase = .busy ∧ step s = .next t ∧ t.phase = .busy :=
  ⟨runningRsh [.read 0x001], _, by decide, eq_next (by decide +kernel), by decide +kernel⟩

/-- A host write of a BUF word, a completion, and a reset of a running command. -/
theorem witness_OnlyThreeStepsChangeBuf :
    (∃ s t : State, s.phase = .idle ∧ step s = .next t ∧ t.buf ≠ s.buf) ∧
    (∃ s t : State, s.phase = .busy ∧ nextInput s = none ∧ step s = .next t ∧ t.buf ≠ s.buf) ∧
    (∃ s t : State, s.phase = .busy ∧ nextInput s = some (.reset, []) ∧ step s = .next t ∧ t.buf ≠ s.buf) :=
  ⟨⟨{ State.reset with inputs := [.write 0x1FF 5] }, _, by decide, eq_next (by decide +kernel), by decide +kernel⟩,
   ⟨runningRsh [], _, by decide, by decide, eq_next (by decide +kernel), by decide +kernel⟩,
   ⟨{ running 0x10000101#32 (cells 1 [9]) with inputs := [.reset] }, _, by decide, by decide, eq_next (by decide +kernel),
     by decide +kernel⟩⟩

theorem witness_StepRunsTheCurrentCommand :
    ((runningRsh []).phase = .busy ∧ decode (runningRsh []).cur = .ok (.rsh 0x00 0x01 1) ∧ (runningRsh []).inputs = []) ∧
    ({ runningRsh [.read 0x001] with latLeft := 0 } : State).latLeft = 0 ∧ (Instr.rsh 0x00 0x01 31).WellFormed := by decide

theorem witness_AcceptedCommandReachesCompletion :
    (runningRsh [.read 0x001, .read 0x100]).phase = .busy ∧
    decode (runningRsh [.read 0x001, .read 0x100]).cur = .ok (.rsh 0x00 0x01 1) ∧
    ∀ x ∈ (runningRsh [.read 0x001, .read 0x100]).inputs, isTransaction x = true := by decide

/-- A host move while busy, and a completion. -/
theorem witness_StepKeepsInvariant :
    (∃ t, MachineInv (runningRsh [.read 0x001]) ∧ step (runningRsh [.read 0x001]) = .next t) ∧
    ∃ t, MachineInv (runningRsh []) ∧ step (runningRsh []) = .next t :=
  ⟨⟨_, by decide +kernel, eq_next (by decide +kernel)⟩, ⟨_, by decide +kernel, eq_next (by decide +kernel)⟩⟩

theorem witness_RshCompletes : (∀ b ∈ [1#5, 31#5], b ≠ 0) ∧ (withBuf (cells 255 [-3])).buf.read 0xFF = some (-3) := by
  decide

/-- Stride 255 from word 7 (95_test_vectors.md L2.3.5). -/
theorem witness_Fdct8Completes : ∀ i : Fin 8,
    (withBuf (cells 0 [700, 600, 500, 400, 300, 200, 100, 0])).buf.read ((0x07#8) + BitVec.ofNat 8 i.val * 0xFF#8) =
      some (vecGet ⟨0, 100, 200, 300, 400, 500, 600, 700⟩ i) := by decide +kernel

/-- The eight input words; at stride 0 the last index alone is not overwritten, at stride 128 the last two. -/
theorem witness_Idct8Completes :
    (∀ k : Fin 8, (withBuf (cells 0x40 [0, 2000, 0, 0, 0, 0, 0, 0])).buf.read ((0x40#8) + BitVec.ofNat 8 k.val) =
      some (vecGet ⟨0, 2000, 0, 0, 0, 0, 0, 0⟩ k)) ∧
    (∀ j : Fin 8, (7 : Fin 8) < j → BitVec.ofNat 8 j.val * (0#8) ≠ BitVec.ofNat 8 (7 : Fin 8).val * 0#8) ∧
    (∀ j : Fin 8, (6 : Fin 8) < j → BitVec.ofNat 8 j.val * (128#8) ≠ BitVec.ofNat 8 (6 : Fin 8).val * 128#8) ∧
    ∀ i : Fin 8, (0x11#8) ≠ (0x10#8) + BitVec.ofNat 8 i.val * 128#8 := by decide +kernel

theorem disjoint_40_80 : disjointRegions 0x40 0x80 := by
  show ∀ a ∈ region 0x40, a ∉ region 0x80
  decide +kernel

theorem disjoint_00_40 : disjointRegions 0x00 0x40 := by
  show ∀ a ∈ region 0x00, a ∉ region 0x40
  decide +kernel

theorem disjoint_80_40 : disjointRegions 0x80 0x40 := by
  show ∀ a ∈ region 0x80, a ∉ region 0x40
  decide +kernel

theorem disjoint_40_C0 : disjointRegions 0x40 0xC0 := by
  show ∀ a ∈ region 0x40, a ∉ region 0xC0
  decide +kernel

theorem pixels_read : ∀ r c, (withBuf (cells 0 pixels)).buf.read (blockAddr 0x00 r c) = some (blockOf pixels r c) := by
  decide +kernel

/-- Three disjoint regions; and tmp = src with dst disjoint (95_test_vectors.md L2.6). -/
theorem witness_Fdct8x8LeavesTransform :
    (∀ r c, (withBuf (cells 0 pixels)).buf.read (blockAddr 0x00 r c) = some (blockOf pixels r c)) ∧
    (disjointRegions 0x40 0x80 ∧ disjointRegions 0x00 0x40) ∧
    (disjointRegions 0x40 0x80 ∧ (0x40#8) = 0x40#8) ∧ (0xC0#8) ∉ region 0x80 ∧ (0xC0#8) ∉ region 0x40 :=
  ⟨pixels_read, ⟨disjoint_40_80, disjoint_00_40⟩, ⟨disjoint_40_80, rfl⟩, by decide +kernel, by decide +kernel⟩

theorem witness_Idct8x8LeavesTransform :
    (∀ c v, (withBuf (cells 0x80 coefficients)).buf.read (blockAddr 0x80 c v) = some (blockOf coefficients c v)) ∧
    (disjointRegions 0x80 0x40 ∧ disjointRegions 0x40 0xC0) ∧
    (disjointRegions 0x80 0x40 ∧ (0x40#8) = 0x40#8) ∧ (0x3F#8) ∉ region 0xC0 ∧ (0x3F#8) ∉ region 0x40 :=
  ⟨by decide +kernel, ⟨disjoint_80_40, disjoint_40_C0⟩, ⟨disjoint_80_40, rfl⟩, by decide +kernel, by decide +kernel⟩

/-- One state in which every command's read set is written, overlaps among them. -/
theorem witness_CommandCompletesWhenReadSetIsWritten :
    ∀ i ∈ [Instr.nop, .rsh 0x3F 0xFF 31, .fdct8 0x07 0x00 255, .idct8 0x38 0x00 0, .fdct8x8 0x00 0x00 0x00,
      .idct8x8 0x00 0x20 0x10], i.WellFormed ∧ ∀ a ∈ readSet i, (withBuf (cells 0 pixels)).buf.isWritten a = true := by
  decide +kernel

/-- Only the last word of a read set is unwritten; and an unwritten word for the host. -/
theorem witness_UnwrittenReadFaults :
    (Instr.idct8 0x39 0x00 1).WellFormed ∧ (∃ a ∈ readSet (.idct8 0x39 0x00 1), (withBuf (cells 0 pixels)).buf.read a = none) ∧
    State.reset.buf.read 0xFF = none := by decide +kernel

/-- With and without the check, and NOP and RSH. -/
theorem witness_CommandFrame :
    (∃ t, exec (.fdct8 0x00 0x40 1) (withBuf (cells 0 pixels)) = .next t ∧ (withBuf (cells 0 pixels)).chk = false) ∧
    (∃ t, exec .nop State.reset = .next t) ∧ (∃ t, exec (.rsh 0x00 0x01 1) (withBuf (cells 0 pixels)) = .next t) :=
  ⟨⟨_, eq_next (by decide +kernel), rfl⟩, ⟨_, rfl⟩, ⟨_, eq_next (by decide +kernel)⟩⟩

theorem witness_OverflowCheckNeverChangesResults :
    ∃ t, exec (.fdct8x8 0x00 0x80 0x40) (withBuf (cells 0 pixels)) = .next t := ⟨_, eq_next (by decide +kernel)⟩

theorem witness_WorkingRegistersAreUnobservable :
    ∃ t, exec (.idct8x8 0x00 0x80 0x40) (withBuf (cells 0 pixels)) = .next t := ⟨_, eq_next (by decide +kernel)⟩

/-- The same eight words as a column and packed (95_test_vectors.md L3 P2). -/
theorem witness_StrideIndependence : ∃ s s' t t' : State,
    (∀ i : Fin 8, s.buf.read ((0x03#8) + BitVec.ofNat 8 i.val * 8#8) = s'.buf.read ((0x60#8) + BitVec.ofNat 8 i.val * 1#8)) ∧
    exec (.fdct8 0x03 0x40 8) s = .next t ∧ exec (.fdct8 0x60 0x48 1) s' = .next t' :=
  ⟨withBuf (cells 0 pixels), withBuf (cells 0x60 [-976, -192, 1376, 1248, 384, 1168, 1120, 896]), _, _, by decide +kernel,
    eq_next (by decide +kernel), eq_next (by decide +kernel)⟩

/-- Strides 1 and 192 + 1: the output stride is no multiple of 64. -/
theorem witness_RoundTripOnTheMachine : ∃ s t u : State,
    (∀ i : Fin 8, s.buf.read ((0x00#8) + BitVec.ofNat 8 i.val * 1#8) = some (vecGet (vecOf (blockOf pixels 0)) i)) ∧
    (193#8).toNat % 64 ≠ 0 ∧ exec (.fdct8 0x00 0x40 1) s = .next t ∧ exec (.idct8 0x40 0x80 193) t = .next u :=
  ⟨withBuf (cells 0 pixels), _, _, by decide +kernel, by decide, eq_next (by decide +kernel), eq_next (by decide +kernel)⟩

/-- The commands of 95_test_vectors.md L3 P3. -/
theorem witness_BlockRoundTripOnTheMachine : ∃ s t u : State,
    (∀ r c, s.buf.read (blockAddr 0x00 r c) = some (blockOf pixels r c)) ∧
    disjointRegions 0x40 0x80 ∧ disjointRegions 0x00 0x40 ∧ disjointRegions 0x80 0x40 ∧ disjointRegions 0x40 0xC0 ∧
    exec (.fdct8x8 0x00 0x80 0x40) s = .next t ∧ exec (.idct8x8 0x80 0xC0 0x40) t = .next u :=
  ⟨withBuf (cells 0 pixels), _, _, pixels_read, disjoint_40_80, disjoint_00_40, disjoint_80_40, disjoint_40_C0,
    eq_next (by decide +kernel), eq_next (by decide +kernel)⟩

/-- The src region, for any dst and tmp (dst = tmp and partial overlaps among them), and one that wraps past word 0xFF. -/
theorem witness_Fdct8x8RunsLineByLine :
    (∀ a ∈ region 0x00, (withBuf (cells 0 pixels)).buf.isWritten a = true) ∧
    ∀ a ∈ region 0xE0, (withBuf (cells 0 (List.replicate 256 1))).buf.isWritten a = true := by decide +kernel

theorem witness_Idct8x8RunsLineByLine : ∀ a ∈ region 0x80, (withBuf (cells 0x80 coefficients)).buf.isWritten a = true := by
  decide +kernel

/-- The first and the last lifting step of each program (F16 and F34, I1 and I20), and a run with an event. -/
theorem witness_OverflowEventsOfAKernel :
    forwardProgram = forwardProgram.take 15 ++ .liftSub .t0 .t4 0 :: forwardProgram.drop 16 ∧
    forwardProgram = forwardProgram.take 33 ++ .liftAdd .t5 .t3 14 :: forwardProgram.drop 34 ∧
    inverseProgram = inverseProgram.take 0 ++ .liftSub .t5 .t3 (Fin.rev 0) :: inverseProgram.drop 1 ∧
    inverseProgram = inverseProgram.take 19 ++ .liftAdd .t0 .t4 (Fin.rev 14) :: inverseProgram.drop 20 ∧
    overflowEvents liftTable .fwd 0 false 0
      (fdctUses liftTable ⟨37600, 37600, -37600, -37600, -37600, -37600, 37600, 37600⟩) =
        [⟨5, .fwd, 0, false, 98254⟩] := by decide +kernel

end Sys2Proof.Tests
end

namespace Sys2Proof.Machine

/-! ### The step numbers of overflow events (41_forward.md R148, 42_inverse.md R184) -/

/-- Either kernel has 15 lifting steps: which micro-steps lift does not depend on the registers. -/
theorem length_kernelUses (d : Dir) (x : Vec8) : (kernelUses d x).length = 15 := by
  cases d with
  | fwd => rfl
  | inv => rfl

/-- An event is numbered by the position of its lifting step. -/
theorem step_of_mem_overflowEvents {T : LiftTable} {d : Dir} {line : BitVec 3} {pass : Bool} {n : Nat}
    {us : List LiftUse} {e : OverflowEvent} (he : e ∈ overflowEvents T d line pass n us) :
    ∃ j, j < n + us.length ∧ e.step = BitVec.ofNat 4 j := by
  rw [overflowEvents_eq_filterMap, List.mem_filterMap] at he
  obtain ⟨⟨u, j⟩, hmem, he⟩ := he
  obtain ⟨-, hj, -⟩ := List.mem_zipIdx hmem
  split_ifs at he
  obtain rfl := Option.some.inj he
  exact ⟨j, by omega, rfl⟩

/-- No event of a line has step number 15. -/
theorem step_ne_of_mem_runLine {d : Dir} {l : Line} {m m' : Memory} {ev : List OverflowEvent}
    (h : runLine d l m = some (m', ev)) : ∀ e ∈ ev, e.step ≠ 15 := by
  obtain ⟨x, -, -, rfl⟩ := runLine_eq_some.mp h
  intro e he h15
  obtain ⟨j, hj, hstep⟩ := step_of_mem_overflowEvents he
  rw [length_kernelUses] at hj
  have hval : j = 15 := by
    simpa [Nat.mod_eq_of_lt (show j < 16 by omega)] using congrArg BitVec.toNat (hstep.symm.trans h15)
  omega

/-- No event of a command's lines has step number 15. -/
theorem step_ne_of_mem_runLines {d : Dir} {ls : List Line} {m m' : Memory} {ev : List OverflowEvent}
    (h : runLines d ls m = some (m', ev)) : ∀ e ∈ ev, e.step ≠ 15 := by
  induction ls generalizing m ev with
  | nil =>
    obtain ⟨-, rfl⟩ : m = m' ∧ [] = ev := by simpa using h
    simp
  | cons l ls ih =>
    obtain ⟨m1, ev1, ev2, h1, h2, rfl⟩ := runLines_cons_eq_some.mp h
    intro e he
    exact (List.mem_append.mp he).elim (step_ne_of_mem_runLine h1 e) (ih h2 e)

/-! ### What a completion and a command leave of the status -/

/-- A command that answers a next state completes, with the overflow report of some events, none of step 15, and it keeps
BUF in canonical form. -/
theorem exec_next_completes {i : Instr} {s t : State} (h : exec i s = .next t) :
    Completed s t ∧ (s.buf.wf = true → t.buf.wf = true) ∧
      ∃ evs, OverflowReport evs s t ∧ ∀ e ∈ evs, e.step ≠ 15 := by
  rcases exec_next_cases h with ⟨-, rfl⟩ | ⟨src, dst, b, a, -, -, -, rfl⟩ | ⟨d, m, evs, -, hm, -, rfl⟩
  · exact ⟨complete_completed _ _ _, by simp, [], complete_report _ _ _, by simp⟩
  · exact ⟨complete_completed _ _ _, by simpa using fun hwf => wf_write hwf _ _, [], complete_report _ _ _,
      by simp⟩
  · obtain ⟨hc, hr⟩ := complete_leaveWork_fields m evs s
    exact ⟨hc, by simpa using (runLines_frame hm).2.1, evs, hr, step_ne_of_mem_runLines hm⟩

/-- After an overflow report OVF, OVFINFO and OVFVAL are as they were, or hold an event captured while OVF was 0. -/
theorem OverflowReport.kept_or_captured {evs : List OverflowEvent} {s t : State} (h : OverflowReport evs s t) :
    OverflowKept s t ∨
      s.status.ovf = false ∧ t.status.ovf = true ∧ ∃ e ∈ evs, t.ovfInfo = ovfInfoOf e ∧ t.ovfVal = e.value := by
  cases evs with
  | nil => exact .inl h
  | cons e rest =>
    simp only [OverflowReport] at h
    split_ifs at h with hchk hovf
    · exact .inl ⟨h.1.trans hovf.symm, h.2⟩
    · exact .inr ⟨by simpa using hovf, h.1, e, List.mem_cons_self, h.2⟩
    · exact .inl h

/-! ### What a CMD write and a STATUS write do (10_state.md R42, R44) -/

theorem issueCommand_of_idle {s : State} (hp : s.phase = .idle) (w : Word) : issueCommand w s = acceptCommand w s := by
  simp [issueCommand, hp]

theorem issueCommand_of_busy {s : State} (hp : s.phase = .busy) (w : Word) : issueCommand w s = raise .busyErr s := by
  simp [issueCommand, hp]

/-- Acceptance clears DONE, and sets ILL for an illegal word. -/
theorem acceptCommand_status (w : Word) (s : State) :
    (acceptCommand w s).status = { s.status with done := false, ill := s.status.ill || !isLegal w } := by
  cases hw : isLegal w with
  | true => simp [acceptCommand_of_legal hw]
  | false => simp [acceptCommand_of_illegal hw]

/-- A STATUS write without bit 4 leaves OVF, OVFINFO and OVFVAL. -/
theorem clearEvents_overflowKept {v : Word} (hv : v.getLsbD 4 = false) (s : State) :
    OverflowKept s (clearEvents v s) := by
  simp only [OverflowKept, clearEvents_status, clearEvents_ovfInfo, clearEvents_ovfVal, hv, Bool.not_false, Bool.and_true,
    Bool.false_eq_true, if_false, and_self]

/-- A STATUS write with bit 4 clears OVF, OVFINFO and OVFVAL together. -/
theorem clearEvents_overflowCleared {v : Word} (hv : v.getLsbD 4 = true) (s : State) :
    (clearEvents v s).status.ovf = false ∧ (clearEvents v s).ovfInfo = ovfInfoClear ∧ (clearEvents v s).ovfVal = 0 := by
  simp only [clearEvents_status, clearEvents_ovfInfo, clearEvents_ovfVal, hv, Bool.not_true, Bool.and_false, if_true, and_self]

/-! ### The parts of the invariant -/

/-- The part of `MachineInv` about OVF, OVFINFO and OVFVAL. -/
def OverflowInv (s : State) : Prop :=
  (s.status.ovf = true → s.ovfInfo.valid = true) ∧
  (s.status.ovf = false → s.ovfInfo = ovfInfoClear ∧ s.ovfVal = 0) ∧ s.ovfInfo.step ≠ 15

theorem OverflowInv.of_kept {s t : State} (h : OverflowInv s) (hk : OverflowKept s t) : OverflowInv t := by
  obtain ⟨hovf, hinfo, hval⟩ := hk
  simpa only [OverflowInv, hovf, hinfo, hval] using h

theorem OverflowInv.of_report {evs : List OverflowEvent} {s t : State} (h : OverflowInv s)
    (hr : OverflowReport evs s t) (hev : ∀ e ∈ evs, e.step ≠ 15) : OverflowInv t := by
  rcases hr.kept_or_captured with hk | ⟨-, hovf, e, he, hinfo, -⟩
  · exact h.of_kept hk
  · exact ⟨fun _ => by rw [hinfo]; rfl, by simp [hovf], by rw [hinfo]; exact hev e he⟩

theorem OverflowInv.of_cleared {s : State} (h : s.status.ovf = false ∧ s.ovfInfo = ovfInfoClear ∧ s.ovfVal = 0) :
    OverflowInv s := by
  obtain ⟨hovf, hinfo, hval⟩ := h
  exact ⟨by simp [hovf], fun _ => ⟨hinfo, hval⟩, by rw [hinfo]; decide⟩

theorem OverflowInv.clearEvents {s : State} (h : OverflowInv s) (v : Word) : OverflowInv (clearEvents v s) := by
  cases hv : v.getLsbD 4 with
  | true => exact .of_cleared (clearEvents_overflowCleared hv s)
  | false => exact h.of_kept (clearEvents_overflowKept hv s)

/-- The part of `MachineInv` about the sequencer: while busy it runs the legal word in CMD. -/
def SequencerInv (s : State) : Prop := s.phase = .busy → s.cur = s.cmd ∧ isLegal s.cur = true

theorem machineInv_iff (s : State) : MachineInv s ↔ s.buf.wf = true ∧ SequencerInv s ∧ OverflowInv s := Iff.rfl

theorem sequencerInv_of_idle {s : State} (h : s.phase = .idle) : SequencerInv s := by
  simp [SequencerInv, h]

/-! ### Every operation keeps the invariant -/

theorem MachineInv.takeInput {s : State} (h : MachineInv s) (rest : List Input) : MachineInv (takeInput s rest) := by
  simpa [MachineInv] using h

theorem MachineInv.acceptCommand {s : State} (h : MachineInv s) (hp : s.phase = .idle) (w : Word) :
    MachineInv (acceptCommand w s) := by
  obtain ⟨hbuf, -, hovf⟩ := (machineInv_iff s).mp h
  cases hw : isLegal w with
  | true =>
    rw [acceptCommand_of_legal hw]
    exact ⟨hbuf, fun _ => ⟨rfl, hw⟩, hovf⟩
  | false =>
    rw [acceptCommand_of_illegal hw]
    exact ⟨hbuf, sequencerInv_of_idle hp, hovf⟩

theorem MachineInv.issueCommand {s : State} (h : MachineInv s) (w : Word) : MachineInv (issueCommand w s) := by
  cases hp : s.phase with
  | idle =>
    rw [issueCommand_of_idle hp]
    exact h.acceptCommand hp w
  | busy =>
    rw [issueCommand_of_busy hp]
    exact h

theorem MachineInv.applyReset {s : State} (h : MachineInv s) : MachineInv (applyReset s) :=
  ⟨wf_eraseAll h.1 _, sequencerInv_of_idle rfl, OverflowInv.of_cleared ⟨rfl, rfl, rfl⟩⟩

theorem MachineInv.applyInput {s t : State} {x : Input} (h : MachineInv s) (hx : applyInput x s = .next t) :
    MachineInv t := by
  obtain ⟨hbuf, hseq, hovf⟩ := (machineInv_iff s).mp h
  rcases applyInput_next_cases hx with ⟨_, _, -, rfl⟩ | ⟨off, v, -, -, rfl⟩ | ⟨w, -, rfl⟩ | ⟨v, -, rfl⟩ |
    ⟨_, -, rfl⟩ | ⟨_, _, -, -, rfl⟩ | ⟨-, rfl⟩
  · exact h
  · exact ⟨wf_write hbuf _ _, hseq, hovf⟩
  · exact h.issueCommand w
  · exact ⟨hbuf, hseq, hovf.clearEvents v⟩
  · exact h
  · exact h
  · exact h.applyReset

theorem MachineInv.exec {i : Instr} {s t : State} (h : MachineInv s) (hx : exec i s = .next t) : MachineInv t := by
  obtain ⟨hbuf, -, hovf⟩ := (machineInv_iff s).mp h
  obtain ⟨hc, hwf, evs, hr, hev⟩ := exec_next_completes hx
  exact ⟨hwf hbuf, sequencerInv_of_idle hc.1, hovf.of_report hr hev⟩

/-- Settles O42: whatever a step does (nothing, an input, or a completion) keeps the invariant. -/
theorem stepKeepsInvariant : Obligations.StepKeepsInvariant := by
  intro s t h hs
  rcases step_next_cases hs with ⟨-, -, rfl⟩ | ⟨x, rest, -, -, hx⟩ | ⟨-, i, -, hx⟩
  · exact h
  · exact (h.takeInput rest).applyInput hx
  · exact h.exec hx

/-- Settles O19: BUF is empty, the block idle, and OVF cleared with OVFINFO and OVFVAL. -/
theorem resetMeetsInvariant : Obligations.ResetMeetsInvariant :=
  ⟨wf_reset, sequencerInv_of_idle rfl, OverflowInv.of_cleared ⟨rfl, rfl, rfl⟩⟩

/-! ### The sticky bits of STATUS (10_state.md R29) -/

/-- The names of the sticky bits. -/
inductive StickyBit where
  | done
  | ill
  | busyErr
  | ovf

/-- The bit's field. -/
def StickyBit.get (st : Status) : StickyBit → Bool
  | .done => st.done
  | .ill => st.ill
  | .busyErr => st.busyErr
  | .ovf => st.ovf

/-- The bit's place in the STATUS word. -/
def StickyBit.index : StickyBit → Nat
  | .done => 1
  | .ill => 2
  | .busyErr => 3
  | .ovf => 4

theorem StickyBit.get_clearEvents (b : StickyBit) (v : Word) (s : State) :
    b.get (clearEvents v s).status = (b.get s.status && !v.getLsbD b.index) := by
  cases b <;> rfl

/-- A CMD write clears no sticky bit but DONE, and that one only while idle. -/
theorem StickyBit.get_issueCommand {b : StickyBit} {w : Word} {s : State} (hb : b.get s.status = true)
    (hd : b ≠ .done ∨ s.phase = .busy) : b.get (issueCommand w s).status = true := by
  cases hp : s.phase with
  | idle =>
    rw [issueCommand_of_idle hp, acceptCommand_status]
    cases b with
    | done => simp [hp] at hd
    | ill => simp [StickyBit.get, show s.status.ill = true from hb]
    | busyErr | ovf => exact hb
  | busy =>
    rw [issueCommand_of_busy hp, raise_busyErr_status]
    cases b with
    | busyErr => rfl
    | done | ill | ovf => exact hb

/-- A completion clears no sticky bit. -/
theorem StickyBit.get_exec {b : StickyBit} {i : Instr} {s t : State} (h : exec i s = .next t)
    (hb : b.get s.status = true) : b.get t.status = true := by
  obtain ⟨⟨-, hdone, hill, hbusyErr, -⟩, -, evs, hr, -⟩ := exec_next_completes h
  cases b with
  | done => exact hdone
  | ill => exact hill.trans hb
  | busyErr => exact hbusyErr.trans hb
  | ovf => exact hr.kept_or_captured.elim (fun hk => hk.1.trans hb) (fun hc => hc.2.1)

/-- Does the input clear the sticky bit, in a state of phase `p`? (60_exceptions.md R262) -/
def StickyBit.ClearedBy (b : StickyBit) (p : Phase) (x : Input) : Prop :=
  x = .reset ∨ (∃ v, x = .write 0x001 v ∧ v.getLsbD b.index = true) ∨
    (b = .done ∧ p = .idle ∧ ∃ w, x = .write 0x000 w)

theorem StickyBit.get_applyInput {b : StickyBit} {x : Input} {s t : State} (h : applyInput x s = .next t)
    (hb : b.get s.status = true) (hc : ¬ b.ClearedBy s.phase x) : b.get t.status = true := by
  rcases applyInput_next_cases h with ⟨_, _, -, rfl⟩ | ⟨_, _, -, -, rfl⟩ | ⟨w, rfl, rfl⟩ | ⟨v, rfl, rfl⟩ |
    ⟨_, -, rfl⟩ | ⟨_, _, -, -, rfl⟩ | ⟨rfl, -⟩
  · exact hb
  · exact hb
  · refine get_issueCommand hb ?_
    cases hp : s.phase with
    | idle => exact .inl fun hd => hc (.inr (.inr ⟨hd, hp, w, rfl⟩))
    | busy => exact .inr rfl
  · have hv : v.getLsbD b.index = false := by
      by_contra hv
      exact hc (.inr (.inl ⟨v, rfl, by simpa using hv⟩))
    rw [get_clearEvents, hb, hv]
    rfl
  · exact hb
  · exact hb
  · exact absurd (.inl rfl) hc

/-- A sticky bit that a step clears is cleared by the step's input. -/
theorem StickyBit.clearedBy_of_step {b : StickyBit} {s t : State} (h : step s = .next t)
    (hs : b.get s.status = true) (ht : b.get t.status = false) :
    ∃ x rest, nextInput s = some (x, rest) ∧ b.ClearedBy s.phase x := by
  by_contra hno
  have hkept : b.get t.status = true := by
    rcases step_next_cases h with ⟨-, -, rfl⟩ | ⟨x, rest, -, hn, hx⟩ | ⟨-, i, -, hx⟩
    · exact hs
    · refine get_applyInput hx (by simpa using hs) fun hc => hno ⟨x, rest, hn, by simpa using hc⟩
    · exact get_exec hx hs
  rw [ht] at hkept
  exact Bool.false_ne_true hkept

/-- For a bit other than DONE that input is a reset or a STATUS write with a 1 at the bit. -/
theorem StickyBit.clearedBy_of_step_of_ne_done {b : StickyBit} (hne : b ≠ .done) {s t : State} (h : step s = .next t)
    (hs : b.get s.status = true) (ht : b.get t.status = false) :
    ∃ x rest, nextInput s = some (x, rest) ∧ (x = .reset ∨ ∃ v, x = .write 0x001 v ∧ v.getLsbD b.index = true) := by
  obtain ⟨x, rest, hn, hreset | hwrite | ⟨hdone, -⟩⟩ := clearedBy_of_step h hs ht
  · exact ⟨x, rest, hn, .inl hreset⟩
  · exact ⟨x, rest, hn, .inr hwrite⟩
  · exact absurd hdone hne

/-- Settles O37: `StickyBit.clearedBy_of_step` for DONE, and its form without CMD writes for the other three bits. -/
theorem stickyBitsStay : Obligations.StickyBitsStay := by
  intro s t h
  refine ⟨fun hs ht => ?_, StickyBit.clearedBy_of_step_of_ne_done (b := .ill) nofun h,
    StickyBit.clearedBy_of_step_of_ne_done (b := .busyErr) nofun h,
    StickyBit.clearedBy_of_step_of_ne_done (b := .ovf) nofun h⟩
  obtain ⟨x, rest, hn, hreset | hwrite | ⟨-, hcmd⟩⟩ := StickyBit.clearedBy_of_step (b := .done) h hs ht
  · exact ⟨x, rest, hn, .inl hreset⟩
  · exact ⟨x, rest, hn, .inr (.inl hwrite)⟩
  · exact ⟨x, rest, hn, .inr (.inr hcmd)⟩

/-! ### The working registers (10_state.md R23) -/

/-- A completion carries the working registers along. -/
theorem complete_withWork (m : Memory) (evs : List OverflowEvent) (s : State) (w : Work) :
    complete m evs { s with work := w } = { complete m evs s with work := w } := by
  obtain ⟨_, _, ⟨_, _, _, ovf⟩, _, _, _, _, _, chk, _⟩ := s
  cases evs with
  | nil => cases chk <;> rfl
  | cons e evs => cases chk <;> cases ovf <;> rfl

/-- Settles O53: NOP and RSH carry the working registers along, and a kernel command replaces them. -/
theorem workingRegistersAreUnobservable : Obligations.WorkingRegistersAreUnobservable := by
  intro i s t w h
  rcases exec_next_cases h with ⟨rfl, rfl⟩ | ⟨src, dst, b, a, rfl, hb, ha, rfl⟩ | ⟨d, m, evs, hd, hm, hr, rfl⟩
  · exact ⟨_, exec_nop _, by rw [complete_withWork]⟩
  · exact ⟨_, exec_rsh_eq_next.mpr ⟨hb, a, ha, rfl⟩, by rw [complete_withWork]⟩
  · exact ⟨_, exec_kernel_of_lines hd hr hm, rfl⟩

/-! ### Register reads (10_state.md R26, R35, R36) -/

theorem applyInput_read_register {off : Offset} (h : off.toNat < 0x100) (s : State) :
    applyInput (.read off) s = .next { s with rdata := some (readRegister off s) } := by
  simp [applyInput, hostRead, isBufOffset_of_lt h]

/-- From offset 0x007 on, the registers are LIFT and reserved offsets. -/
theorem readRegister_of_ge {off : Offset} (h : 0x007 ≤ off.toNat) (s : State) :
    readRegister off s = if 0x010 ≤ off.toNat then readLift (off.toNat - 0x010) else 0 := by
  have hne : ∀ k : Offset, k.toNat < 0x007 → off ≠ k := fun k hk he => by subst he; omega
  unfold readRegister
  iterate 7 rw [if_neg (hne _ (by decide))]

theorem readRegister_lift {off : Offset} {k : Fin 15} (h : off.toNat = 0x010 + k.val) (s : State) :
    readRegister off s = liftWord (liftTable k) := by
  rw [readRegister_of_ge (by omega), if_pos (by omega), h]
  simp [readLift]

theorem readRegister_reserved {off : Offset} (h : 0x007 ≤ off.toNat) (h' : off.toNat ≤ 0x00F ∨ 0x01F ≤ off.toNat)
    (s : State) : readRegister off s = 0 := by
  rw [readRegister_of_ge h]
  split_ifs with h10
  · exact dif_neg (by omega)
  · rfl

theorem liftWord_eq_ofNat (c : LiftConst) : liftWord c = BitVec.ofNat 32 (c.m.toNat + c.s.toNat * 2 ^ 16) := by
  refine BitVec.eq_of_toNat_eq ?_
  have hm := c.m.isLt
  have hs := c.s.isLt
  rw [liftWord, BitVec.toNat_append, BitVec.toNat_append, BitVec.toNat_ofNat, ← Nat.shiftLeft_add_eq_or_of_lt hm]
  simp [Nat.shiftLeft_eq]
  omega

/-- Settles O22: the offsets 0x000 to 0x006 by evaluation, LIFT and the reserved offsets by their lemmas. -/
theorem readOfRegister : Obligations.ReadOfRegister := by
  intro s off h
  refine ⟨_, applyInput_read_register h s, ?_, ?_, ?_, ?_, ?_, ?_, ?_, fun k hk => ?_, fun h7 hF => ?_, fun h1F => ?_⟩
  · rintro rfl; rfl
  · rintro rfl; rfl
  · rintro rfl; rfl
  · rintro rfl; rfl
  · rintro rfl; rfl
  · rintro rfl; rfl
  · rintro rfl; rfl
  · rw [readRegister_lift hk, liftWord_eq_ofNat]
  · exact readRegister_reserved h7 (.inl hF) s
  · exact readRegister_reserved (by omega) (.inr h1F) s

/-! ### The bits of the register words (10_state.md R29, R31, R32) -/

theorem statusWord_getLsbD (s : State) :
    (statusWord s).getLsbD 0 = decide (s.phase = .busy) ∧ (statusWord s).getLsbD 1 = s.status.done ∧
      (statusWord s).getLsbD 2 = s.status.ill ∧ (statusWord s).getLsbD 3 = s.status.busyErr ∧
      (statusWord s).getLsbD 4 = s.status.ovf := by
  simp only [statusWord, BitVec.getLsbD_append, BitVec.getLsbD_ofBool]
  simp

theorem statusWord_reserved (s : State) : (statusWord s).extractLsb' 5 27 = 0 := by
  refine BitVec.eq_of_getLsbD_eq fun i hi => ?_
  simp only [statusWord, BitVec.getLsbD_extractLsb', BitVec.getLsbD_append]
  simp

theorem ctrlWord_getLsbD (c : Ctrl) : (ctrlWord c).getLsbD 0 = c.ovfChk ∧ (ctrlWord c).getLsbD 1 = c.ie := by
  simp only [ctrlWord, BitVec.getLsbD_append, BitVec.getLsbD_ofBool]
  simp

theorem ctrlWord_reserved (c : Ctrl) : (ctrlWord c).extractLsb' 2 30 = 0 := by
  refine BitVec.eq_of_getLsbD_eq fun i hi => ?_
  simp only [ctrlWord, BitVec.getLsbD_extractLsb', BitVec.getLsbD_append]
  simp

theorem ovfInfoWord_getLsbD (o : OvfInfo) :
    (ovfInfoWord o).getLsbD 4 = o.dir ∧ (ovfInfoWord o).getLsbD 8 = o.pass ∧ (ovfInfoWord o).getLsbD 31 = o.valid := by
  simp only [ovfInfoWord, BitVec.getLsbD_append, BitVec.getLsbD_ofBool]
  simp

theorem ovfInfoWord_step (o : OvfInfo) : (ovfInfoWord o).extractLsb' 0 4 = o.step :=
  BitVec.extractLsb'_append_eq_right

theorem ovfInfoWord_line (o : OvfInfo) : (ovfInfoWord o).extractLsb' 5 3 = o.line := by
  refine BitVec.eq_of_getLsbD_eq fun i hi => ?_
  simp only [ovfInfoWord, BitVec.getLsbD_extractLsb', BitVec.getLsbD_append]
  interval_cases i <;> simp

theorem ovfInfoWord_reserved (o : OvfInfo) : (ovfInfoWord o).extractLsb' 9 22 = 0 := by
  refine BitVec.eq_of_getLsbD_eq fun i hi => ?_
  simp only [ovfInfoWord, BitVec.getLsbD_extractLsb', BitVec.getLsbD_append]
  simp [Nat.add_comm 9 i, hi]

/-- Settles O23: one lemma per word and per field or reserved part; OVFINFO of a captured event is its fields' word. -/
theorem registerLayouts : Obligations.RegisterLayouts := by
  refine ⟨fun s => ⟨?_, ?_, ?_⟩, fun e => ?_⟩
  · obtain ⟨hbusy, hdone, hill, hbusyErr, hovf⟩ := statusWord_getLsbD s
    exact ⟨hbusy, hdone, hill, hbusyErr, hovf, statusWord_reserved s⟩
  · obtain ⟨hchk, hie⟩ := ctrlWord_getLsbD s.ctrl
    exact ⟨hchk, hie, ctrlWord_reserved s.ctrl⟩
  · obtain ⟨hdir, hpass, hvalid⟩ := ovfInfoWord_getLsbD s.ovfInfo
    exact ⟨ovfInfoWord_step _, hdir, ovfInfoWord_line _, hpass, ovfInfoWord_reserved _, hvalid⟩
  · obtain ⟨hdir, hpass, hvalid⟩ := ovfInfoWord_getLsbD (ovfInfoOf e)
    exact ⟨hvalid, ovfInfoWord_reserved _, hpass, ovfInfoWord_line _, by rw [hdir]; exact decide_eq_true_iff,
      ovfInfoWord_step _⟩

/-! ### Register writes and IRQ (10_state.md R36, R38, R42, R43, R45) -/

theorem applyInput_write_register {off : Offset} (h : off.toNat < 0x100) (v : Word) (s : State) :
    applyInput (.write off v) s = .next (writeRegister off v s) := by
  simp [applyInput, hostWrite, isBufOffset_of_lt h]

/-- Settles O29: such a write is `clearEvents`, and bit 4 decides about OVFINFO and OVFVAL. -/
theorem statusWriteOneToClear : Obligations.StatusWriteOneToClear := by
  intro s v
  refine ⟨clearEvents v s, applyInput_write_register (by decide) v s, rfl, rfl, rfl, rfl, fun hv => ?_, fun hv => ?_, rfl⟩
  · obtain ⟨-, hinfo, hval⟩ := clearEvents_overflowCleared hv s
    rw [hinfo]
    exact ⟨rfl, hval⟩
  · exact (clearEvents_overflowKept hv s).2

/-- Settles O30: the next accepted command takes its snapshot from the CTRL just written. -/
theorem controlWrite : Obligations.ControlWrite := by
  intro s v
  refine ⟨{ s with ctrl := ctrlOfWord v }, applyInput_write_register (by decide) v s, rfl, rfl, rfl, rfl, rfl,
    fun hidle w hw => ⟨_, applyInput_write_register (by decide) w _, ?_⟩⟩
  show (issueCommand w { s with ctrl := ctrlOfWord v }).chk = _
  rw [issueCommand_of_idle (s := { s with ctrl := ctrlOfWord v }) hidle, acceptCommand_of_legal hw]
  rfl

/-- Settles O31: of the registers only CMD, STATUS and CTRL, below offset 0x003, take a write. -/
theorem readOnlyWritesAreIgnored : Obligations.ReadOnlyWritesAreIgnored := by
  intro s off v h3 hlt
  rw [applyInput_write_register hlt]
  rcases writeRegister_cases off v s with ⟨rfl, -⟩ | ⟨rfl, -⟩ | ⟨rfl, -⟩ | ⟨-, -, -, h⟩
  · exact absurd h3 (by decide)
  · exact absurd h3 (by decide)
  · exact absurd h3 (by decide)
  · rw [h]

/-- The IRQ sources are bits 4:1 of the STATUS word. -/
theorem statusWord_and_sources_ne_zero (s : State) :
    statusWord s &&& 0x0000001E#32 ≠ 0 ↔
      (s.status.done || s.status.ill || s.status.busyErr || s.status.ovf) = true := by
  unfold statusWord
  generalize decide (s.phase = .busy) = busy
  obtain ⟨done, ill, busyErr, ovf⟩ := s.status
  revert busy done ill busyErr ovf
  decide

/-- Settles O36: bit 1 of the CTRL word is IE, and the mask takes the four sources. -/
theorem irqLevel : Obligations.IrqLevel := by
  refine ⟨fun s => ?_, fun s t hctrl hstatus => ?_⟩
  · rw [statusWord_and_sources_ne_zero, (ctrlWord_getLsbD s.ctrl).2]
    exact Bool.and_eq_true_iff
  · rw [irq, irq, hctrl, hstatus]

/-- Settles O18: every read is evaluated at the one state `State.reset`. -/
theorem powerOnState : Obligations.PowerOnState :=
  ⟨rfl, rfl, rfl, rfl, rfl, rfl, rfl, rfl, rfl, fun _ => rfl⟩

end Sys2Proof.Machine

namespace Sys2Proof.Machine

/-! ### The next input (20_memory.md R70, R71) -/

/-- An input that is not held, or that meets an idle block, is the next input. -/
theorem nextInput_of_not_held {s : State} {x : Input} {rest : List Input} (hin : s.inputs = x :: rest)
    (h : s.phase = .idle ∨ isHeld x = false) : nextInput s = some (x, rest) := by
  simp only [nextInput, hin]
  rw [if_neg]
  rintro ⟨hbusy, hheld⟩
  rcases h with hidle | hfree
  · simp [hidle] at hbusy
  · simp [hfree] at hheld

/-- A held access with no reset right behind it leaves the host's side without a move. -/
theorem nextInput_of_held {s : State} {x : Input} {rest : List Input} (hp : s.phase = .busy)
    (hin : s.inputs = x :: rest) (hx : isHeld x = true) (hreset : rest.head? ≠ some .reset) : nextInput s = none := by
  simp only [nextInput, hin, hp, hx, and_self, if_true]
  split
  · simp at hreset
  · rfl

/-- While BUSY = 1 no held access takes effect. -/
theorem isHeld_of_nextInput {s : State} {x : Input} {rest : List Input} (hp : s.phase = .busy)
    (h : nextInput s = some (x, rest)) : isHeld x = false := by
  unfold nextInput at h
  split at h
  · simp at h
  · split_ifs at h with hc
    · split at h
      · obtain ⟨rfl, -⟩ := Prod.mk.inj (Option.some.inj h)
        rfl
      · simp at h
    · obtain ⟨rfl, -⟩ := Prod.mk.inj (Option.some.inj h)
      simpa [hp] using hc

theorem takeInput_of_idle {s : State} (hp : s.phase = .idle) (rest : List Input) :
    takeInput s rest = { s with inputs := rest } := by
  simp [takeInput, hp]

theorem takeInput_of_busy {s : State} (hp : s.phase = .busy) (rest : List Input) :
    takeInput s rest = { s with inputs := rest, latLeft := s.latLeft - 1 } := by
  simp [takeInput, hp]

/-- An idle block without an input keeps its state. -/
theorem step_of_idle_of_no_inputs {s : State} (hp : s.phase = .idle) (hin : s.inputs = []) : step s = .next s := by
  have hn : nextInput s = none := by simp [nextInput, hin]
  simp [step, nextTurn, hn, hp]

/-- Settles O27: the next input is the first one where it is not held, and taking it uses up a move only while busy. -/
theorem stepTakesTheNextInput : Obligations.StepTakesTheNextInput := by
  refine fun s => ⟨step_of_idle_of_no_inputs, fun x rest hin => ⟨fun hp => ?_, fun hp hlat hx => ?_⟩⟩
  · rw [step_eq_applyInput (by simp [hostMayMove, hp]) (nextInput_of_not_held hin (.inl hp)), takeInput_of_idle hp]
  · rw [step_eq_applyInput (by simpa [hostMayMove, hp] using hlat) (nextInput_of_not_held hin (.inr hx)),
      takeInput_of_busy hp]

/-- Settles O28: the access is held, so the step is the completion, which keeps the inputs. -/
theorem bufAccessIsHeldWhileBusy : Obligations.BufAccessIsHeldWhileBusy := by
  intro s x rest i hp hin hx hreset hd
  have hstep : step s = exec i s := step_eq_exec hp hd (.inr (nextInput_of_held hp hin hx hreset))
  refine ⟨hstep, fun t ht => ?_⟩
  obtain ⟨⟨hidle, -, -, -, -, -, -, -, hinputs, -⟩, -⟩ := exec_next_completes (hstep ▸ ht)
  exact ⟨hidle, hinputs.trans hin⟩

/-! ### Steps while a command runs (20_memory.md R74, 60_exceptions.md R255) -/

/-- While BUSY = 1 an input that is not held leaves BUF, the command and its OVFCHK snapshot, or is a reset. -/
theorem applyInput_busy_frame {x : Input} {s t : State} (hp : s.phase = .busy) (hx : isHeld x = false)
    (h : applyInput x s = .next t) :
    t.phase = .idle ∨ (t.buf = s.buf ∧ t.cur = s.cur ∧ t.chk = s.chk ∧ t.cmd = s.cmd) := by
  rcases applyInput_next_cases h with ⟨_, _, -, rfl⟩ | ⟨off, v, rfl, hoff, -⟩ | ⟨w, -, rfl⟩ | ⟨v, -, rfl⟩ |
    ⟨_, -, rfl⟩ | ⟨_, _, -, -, rfl⟩ | ⟨-, rfl⟩
  · exact .inr ⟨rfl, rfl, rfl, rfl⟩
  · exact absurd (hoff.symm.trans hx) nofun
  · rw [issueCommand_of_busy hp]
    exact .inr ⟨rfl, rfl, rfl, rfl⟩
  · exact .inr ⟨rfl, rfl, rfl, rfl⟩
  · exact .inr ⟨rfl, rfl, rfl, rfl⟩
  · exact .inr ⟨rfl, rfl, rfl, rfl⟩
  · exact .inl rfl

/-- Settles O38: a completion leaves the block idle, and every input that a busy block takes is not held. -/
theorem runningCommandIsUndisturbed : Obligations.RunningCommandIsUndisturbed := by
  intro s t hp h htp
  rcases step_next_cases h with ⟨-, -, rfl⟩ | ⟨x, rest, -, hn, hx⟩ | ⟨-, i, -, hx⟩
  · exact ⟨rfl, rfl, rfl, rfl⟩
  · rcases applyInput_busy_frame (by simpa using hp) (isHeld_of_nextInput hp hn) hx with hidle | hkept
    · simp [hidle] at htp
    · simpa using hkept
  · obtain ⟨⟨hidle, -⟩, -⟩ := exec_next_completes hx
    simp [hidle] at htp

/-! ### Host accesses (20_memory.md R63, R65) -/

theorem applyInput_read_buf (s : State) (a : Addr) :
    applyInput (.read (BitVec.ofNat 9 (0x100 + a.toNat))) s =
      (s.buf.read a).elim (.fault .unwrittenHostRead) fun v => .next { s with rdata := some v } := by
  obtain ⟨hoff, haddr⟩ := bufAddr_offset a
  simp only [applyInput, hostRead, hoff, haddr, if_true]
  cases s.buf.read a <;> rfl

theorem applyInput_write_buf (s : State) (a : Addr) (v : Word) :
    applyInput (.write (BitVec.ofNat 9 (0x100 + a.toNat)) v) s = .next { s with buf := s.buf.write a v } := by
  obtain ⟨hoff, haddr⟩ := bufAddr_offset a
  simp only [applyInput, hostWrite, hoff, haddr, if_true]

/-- Settles O25: the host read's two outcomes, at a written word. -/
theorem readOfBuf : Obligations.ReadOfBuf := by
  intro s a v _ hv
  rw [applyInput_read_buf, hv]
  rfl

/-- Settles O26: the new BUF is the old one with one word written. -/
theorem writeOfBuf : Obligations.WriteOfBuf := by
  intro s a v _
  exact ⟨_, applyInput_write_buf s a v, read_write_same _ _ _, fun _ hne => read_write_ne _ hne.symm _⟩

/-- Settles O32: this input has one outcome, whatever the state. -/
theorem subWordAccessIsRefused : Obligations.SubWordAccessIsRefused := fun _ _ _ => rfl

/-! ### The commands (20_memory.md R66, R78) -/

theorem exec_rsh_fault {src dst : Addr} {b : BitVec 5} {s : State} (hb : b ≠ 0) (h : s.buf.read src = none) :
    exec (.rsh src dst b) s = .fault .unwrittenCommandRead := by
  show execRsh src dst b s = _
  simp only [execRsh, if_neg hb, h]

/-- Settles O50: a kernel command checks its whole read set, RSH its one word, and NOP reads none. -/
theorem unwrittenReadFaults : Obligations.UnwrittenReadFaults := by
  refine ⟨fun i s hwf hun => ?_, fun s a h => ?_⟩
  · cases hd : commandDir i with
    | some d =>
      rw [exec_kernel hd]
      exact execLines_fault hun
    | none =>
      cases i with
      | nop => simp [readSet] at hun
      | rsh src dst b =>
        exact exec_rsh_fault (by simpa [Instr.WellFormed, Instr.wf] using hwf) (by simpa [readSet] using hun)
      | fdct8 | idct8 | fdct8x8 | idct8x8 => simp [commandDir] at hd
  · rw [applyInput_read_buf, h]
    rfl

/-- A command leaves every BUF word outside its write set. -/
theorem exec_read_of_notMem_writeSet {i : Instr} {s t : State} (h : exec i s = .next t) {a : Addr}
    (ha : a ∉ writeSet i) : t.buf.read a = s.buf.read a := by
  rcases exec_next_cases h with ⟨-, rfl⟩ | ⟨src, dst, b, v, rfl, -, -, rfl⟩ | ⟨d, m, evs, hd, hm, -, rfl⟩
  · rw [complete_buf]
  · have hne : dst ≠ a := fun he => ha (by simp [writeSet, he])
    rw [complete_buf, read_write_ne _ hne]
  · obtain ⟨hframe, -⟩ := runLines_frame hm
    rw [complete_buf]
    exact hframe a fun l hl hal => ha ((mem_writeSet_iff_lines hd a).mpr ⟨l, hl, hal⟩)

/-- A command without a kernel has no overflow event, and leaves the working registers and the draws. -/
theorem exec_frame_of_no_kernel {i : Instr} {s t : State} (h : exec i s = .next t) (hd : commandDir i = none) :
    OverflowKept s t ∧ t.work = s.work ∧ t.draws = s.draws := by
  rcases exec_next_cases h with ⟨-, rfl⟩ | ⟨_, _, _, _, -, -, -, rfl⟩ | ⟨d, _, _, hd', -⟩
  · exact ⟨complete_report _ [] s, complete_work _ _ _, complete_draws _ _ _⟩
  · exact ⟨complete_report _ [] s, complete_work _ _ _, complete_draws _ _ _⟩
  · simp [hd] at hd'

/-- Settles O51: the four clauses by their lemmas; NOP and RSH are the commands without a kernel. -/
theorem commandFrame : Obligations.CommandFrame := by
  intro i s t h
  obtain ⟨hc, -, evs, hr, -⟩ := exec_next_completes h
  refine ⟨fun a ha => exec_read_of_notMem_writeSet h ha, hc, hr.kept_of_chk, ?_⟩
  rintro (rfl | ⟨src, dst, b, rfl⟩)
  · exact exec_frame_of_no_kernel h rfl
  · exact exec_frame_of_no_kernel h rfl

end Sys2Proof.Machine

namespace Sys2Proof

/-! ### A word and its fields (30_encoding.md R91) -/

theorem append_eq_append_iff {m n : Nat} (x x' : BitVec m) (y y' : BitVec n) :
    x ++ y = x' ++ y' ↔ x = x' ∧ y = y' := by
  refine ⟨fun h => ⟨?_, ?_⟩, fun ⟨hx, hy⟩ => by rw [hx, hy]⟩
  · simpa only [BitVec.extractLsb'_append_eq_left] using congrArg (BitVec.extractLsb' n m) h
  · simpa only [BitVec.extractLsb'_append_eq_right] using congrArg (BitVec.extractLsb' 0 n) h

/-- The five fields of a command word, side by side, are the word: each append closes the gap to the next field. -/
theorem append_fields (w : Word) : opField w ++ rsvField w ++ aField w ++ bField w ++ cField w = w := by
  have hrsv : opField w ++ rsvField w = w.extractLsb' 24 8 :=
    BitVec.extractLsb'_append_extractLsb'_eq_extractLsb' (by rfl)
  have ha : w.extractLsb' 24 8 ++ aField w = w.extractLsb' 16 16 :=
    BitVec.extractLsb'_append_extractLsb'_eq_extractLsb' (by rfl)
  have hb : w.extractLsb' 16 16 ++ bField w = w.extractLsb' 8 24 :=
    BitVec.extractLsb'_append_extractLsb'_eq_extractLsb' (by rfl)
  rw [hrsv, ha, hb]
  exact BitVec.extractLsb'_append_extractLsb' (len := 8) (w := 24) (x := w)

theorem cField_eq_append (w : Word) : cField w = cHighField w ++ shField w :=
  Eq.symm (BitVec.extractLsb'_append_extractLsb'_eq_extractLsb' (by rfl))

theorem word_eq_iff (w w' : Word) : w = w' ↔ opField w = opField w' ∧ rsvField w = rsvField w' ∧
    aField w = aField w' ∧ bField w = bField w' ∧ cField w = cField w' := by
  refine ⟨fun h => by simp [h], fun ⟨hop, hrsv, ha, hb, hc⟩ => ?_⟩
  rw [← append_fields w, ← append_fields w', hop, hrsv, ha, hb, hc]

theorem packFields_eq_iff (op : BitVec 4) (a b : Addr) (c : BitVec 8) (w : Word) : packFields op a b c = w ↔
    opField w = op ∧ rsvField w = 0 ∧ a = aField w ∧ b = bField w ∧ c = cField w := by
  rw [word_eq_iff, eq_comm (a := opField w), eq_comm (a := rsvField w)]
  simp

/-- What a row's mask `m` tests (R95), where it covers OP and RSV and neither A nor B. -/
theorem and_mask_eq_iff {m : Word} (hop : opField m = BitVec.allOnes 4) (hrsv : rsvField m = BitVec.allOnes 4)
    (ha : aField m = 0) (hb : bField m = 0) (w : Word) (op : BitVec 4) (c : BitVec 8) :
    w &&& m = packFields op 0 0 c ↔ opField w = op ∧ rsvField w = 0 ∧ cField w &&& cField m = c := by
  have hfields : w &&& m = packFields op 0 0 c ↔ opField w &&& opField m = op ∧ rsvField w &&& rsvField m = 0 ∧
      aField w &&& aField m = 0 ∧ bField w &&& bField m = 0 ∧ cField w &&& cField m = c := by
    rw [word_eq_iff, opField_packFields, rsvField_packFields, aField_packFields, bField_packFields, cField_packFields]
    simp only [opField, rsvField, aField, bField, cField, BitVec.extractLsb'_and]
  simpa only [hop, hrsv, ha, hb, BitVec.and_allOnes, BitVec.ofNat_eq_ofNat, BitVec.and_zero, true_and] using hfields

theorem and_kernelMask_eq_iff (w : Word) (op : BitVec 4) :
    w &&& 0xFF000000#32 = packFields op 0 0 0 ↔ opField w = op ∧ rsvField w = 0 := by
  have hc : cField w &&& cField 0xFF000000#32 = 0 := BitVec.and_zero
  rw [and_mask_eq_iff rfl rfl rfl rfl, and_iff_left hc]

theorem and_rshMask_eq_iff (w : Word) :
    w &&& 0xFF0000E0#32 = 0x10000000#32 ↔ opField w = 1 ∧ rsvField w = 0 ∧ cHighField w = 0 := by
  have hc : cField w &&& cField 0xFF0000E0#32 = 0#3 ++ 0#5 ↔ cHighField w = 0 := by
    have hmask : cField 0xFF0000E0#32 = BitVec.allOnes 3 ++ 0#5 := rfl
    rw [hmask, cField_eq_append, BitVec.and_append, append_eq_append_iff, BitVec.and_allOnes, BitVec.and_zero]
    exact and_iff_left rfl
  rw [← hc]
  exact and_mask_eq_iff rfl rfl rfl rfl w 1 0

/-! ### Decoding and encoding (30_encoding.md R97, R98) -/

theorem wellFormed_rsh_iff {src dst : Addr} {b : BitVec 5} : (Instr.rsh src dst b).WellFormed ↔ b ≠ 0 := by
  simp [Instr.WellFormed, Instr.wf]

/-- Settles O2: the fields of a packed word are what was packed, so the decoder takes the branch of the command's own row. -/
theorem decodeOfEncodeIsIdentity : Obligations.DecodeOfEncodeIsIdentity := by
  intro i hwf
  have h := decode_cases (encode i)
  cases i with
  | nop => rfl
  | rsh src dst b =>
    have hhigh : (0#3 ++ b).extractLsb' 5 3 = 0 := BitVec.extractLsb'_append_eq_left
    have hsh : (0#3 ++ b).extractLsb' 0 5 = b := BitVec.extractLsb'_append_eq_right
    have hb : b ≠ 0#5 := wellFormed_rsh_iff.mp hwf
    simpa [encode, hhigh, hsh, hb] using h
  | fdct8 | idct8 | fdct8x8 | idct8x8 => simpa [encode] using h

/-- A word that decodes has RSV = 0, and its command's word packs the same fields. -/
theorem encode_of_decode {w : Word} {i : Instr} (h : decode w = .ok i) : encode i = w ∧ i.WellFormed := by
  rcases decode_cases w with ⟨-, hd⟩ | ⟨hrsv, ⟨-, hw, hd⟩ | ⟨-, -, hd⟩ | ⟨-, -, hd⟩ | ⟨-, -, -, hd⟩ |
    ⟨hop, hhigh, hsh, hd⟩ | ⟨hop, hd⟩ | ⟨hop, hd⟩ | ⟨hop, hd⟩ | ⟨hop, hd⟩ | ⟨-, -, -, -, -, -, hd⟩⟩ <;>
    rw [hd] at h <;> cases h
  · exact ⟨hw.symm, rfl⟩
  · have hc : 0#3 ++ shField w = cField w := by rw [cField_eq_append, hhigh]; rfl
    exact ⟨(packFields_eq_iff ..).mpr ⟨hop, hrsv, rfl, rfl, hc⟩, wellFormed_rsh_iff.mpr hsh⟩
  all_goals exact ⟨(packFields_eq_iff ..).mpr ⟨hop, hrsv, rfl, rfl, rfl⟩, rfl⟩

/-- Settles O3: two words that decode to one command are both that command's word. -/
theorem legalWordIsItsTermsWord : Obligations.LegalWordIsItsTermsWord := by
  refine ⟨fun w i h => encode_of_decode h, fun w w' i h h' => ?_⟩
  obtain ⟨hw, -⟩ := encode_of_decode h
  obtain ⟨hw', -⟩ := encode_of_decode h'
  exact hw.symm.trans hw'

theorem decode_eq_ok_iff (w : Word) (i : Instr) : decode w = .ok i ↔ encode i = w ∧ i.WellFormed :=
  ⟨encode_of_decode, fun ⟨hw, hwf⟩ => hw ▸ decodeOfEncodeIsIdentity i hwf⟩

/-! ### The rows of the command set (30_encoding.md R95) -/

theorem decode_eq_nop_iff (w : Word) : decode w = .ok .nop ↔ w = 0 := by
  rw [decode_eq_ok_iff, eq_comm (a := w)]
  exact and_iff_left rfl

theorem decode_eq_rsh_iff (w : Word) (src dst : Addr) (b : BitVec 5) : decode w = .ok (.rsh src dst b) ↔
    w &&& 0xFF0000E0#32 = 0x10000000#32 ∧ shField w ≠ 0 ∧ src = aField w ∧ dst = bField w ∧ b = shField w := by
  rw [decode_eq_ok_iff, wellFormed_rsh_iff, and_rshMask_eq_iff, encode, packFields_eq_iff, cField_eq_append,
    append_eq_append_iff, eq_comm (a := cHighField w)]
  constructor
  · rintro ⟨⟨hop, hrsv, hsrc, hdst, hhigh, rfl⟩, hb⟩
    exact ⟨⟨hop, hrsv, hhigh⟩, hb, hsrc, hdst, rfl⟩
  · rintro ⟨⟨hop, hrsv, hhigh⟩, hsh, hsrc, hdst, rfl⟩
    exact ⟨⟨hop, hrsv, hsrc, hdst, hhigh, rfl⟩, hsh⟩

/-- The row of a kernel command: RSV is 0, OP is its own, and each of A, B and C is an operand. -/
theorem decode_eq_kernel_iff {i : Instr} {op : BitVec 4} {a b : Addr} {c : BitVec 8}
    (hi : encode i = packFields op a b c) (hwf : i.WellFormed) (w : Word) : decode w = .ok i ↔
    w &&& 0xFF000000#32 = packFields op 0 0 0 ∧ a = aField w ∧ b = bField w ∧ c = cField w := by
  rw [decode_eq_ok_iff, and_iff_left hwf, hi, packFields_eq_iff, and_kernelMask_eq_iff, and_assoc]

/-- Settles O4: a row for each command; a word is legal when one of them has it, with its own fields for operands. -/
theorem legalWordsAreTheTableRows : Obligations.LegalWordsAreTheTableRows := by
  intro w
  have hnop := decode_eq_nop_iff w
  have hrsh := decode_eq_rsh_iff w
  have hfdct8 := fun src dst stride => decode_eq_kernel_iff (i := .fdct8 src dst stride) rfl rfl w
  have hidct8 := fun src dst stride => decode_eq_kernel_iff (i := .idct8 src dst stride) rfl rfl w
  have hfdct8x8 := fun src dst tmp => decode_eq_kernel_iff (i := .fdct8x8 src dst tmp) rfl rfl w
  have hidct8x8 := fun src dst tmp => decode_eq_kernel_iff (i := .idct8x8 src dst tmp) rfl rfl w
  refine ⟨?_, hrsh, hfdct8, hidct8, hfdct8x8, hidct8x8, (isLegal_iff w).trans ⟨?_, ?_⟩⟩
  · rw [hnop, show 0xFFFFFFFF#32 = BitVec.allOnes 32 from rfl, BitVec.and_allOnes]
    rfl
  · rintro ⟨i, h⟩
    cases i with
    | nop => exact .inl (hnop.mp h)
    | rsh =>
      obtain ⟨hmask, hsh, -⟩ := (hrsh ..).mp h
      exact .inr (.inl ⟨hmask, hsh⟩)
    | fdct8 => exact .inr (.inr (.inl ((hfdct8 ..).mp h).1))
    | idct8 => exact .inr (.inr (.inr (.inl ((hidct8 ..).mp h).1)))
    | fdct8x8 => exact .inr (.inr (.inr (.inr (.inl ((hfdct8x8 ..).mp h).1))))
    | idct8x8 => exact .inr (.inr (.inr (.inr (.inr ((hidct8x8 ..).mp h).1))))
  · rintro (h | ⟨h, hsh⟩ | h | h | h | h)
    · exact ⟨_, hnop.mpr h⟩
    · exact ⟨_, (hrsh ..).mpr ⟨h, hsh, rfl, rfl, rfl⟩⟩
    · exact ⟨_, (hfdct8 ..).mpr ⟨h, rfl, rfl, rfl⟩⟩
    · exact ⟨_, (hidct8 ..).mpr ⟨h, rfl, rfl, rfl⟩⟩
    · exact ⟨_, (hfdct8x8 ..).mpr ⟨h, rfl, rfl, rfl⟩⟩
    · exact ⟨_, (hidct8x8 ..).mpr ⟨h, rfl, rfl, rfl⟩⟩

/-- Settles O1: the encoder and the decoder run on each of the fixed words. -/
theorem exampleWordsDecode : Obligations.ExampleWordsDecode := by
  unfold Obligations.ExampleWordsDecode
  decide

end Sys2Proof

namespace Sys2Proof.Machine

/-! ### The sum of RSHIFT and its wrap (40_rounding_shift.md R120, R124) -/

/-- A word shifted right logically by at least one is not negative: its two readings agree. -/
theorem toInt_lsr (v : Word) {n : Nat} (hn : 0 < n) : (lsr v n).toInt = (lsr v n).toNat := by
  rw [lsr, BitVec.toInt_ushiftRight_of_lt hn, BitVec.toNat_ushiftRight]

theorem toNat_lsr_lt (v : Word) {n : Nat} (hn : 0 < n) : (lsr v n).toNat < 2 ^ 31 := by
  have h : (lsr v n).toInt < 2 ^ 31 := BitVec.toInt_lt
  rw [toInt_lsr v hn] at h
  exact_mod_cast h

theorem toInt_lsr_add (v : Word) {n : Nat} (hn : 0 < n) :
    (lsr v n + v).toInt = ((lsr v n).toNat + v.toInt).bmod (2 ^ 32) := by
  rw [BitVec.toInt_add, toInt_lsr v hn]

/-- Below `2^31` the sum does not wrap: its addend is not negative. -/
theorem toInt_lsr_add_of_lt {v : Word} {n : Nat} (hn : 0 < n) (h : (lsr v n).toNat + v.toInt < 2 ^ 31) :
    (lsr v n + v).toInt = (lsr v n).toNat + v.toInt := by
  have hv : -2 ^ 31 ≤ v.toInt := BitVec.le_toInt v
  rw [toInt_lsr_add v hn]
  exact Int.bmod_eq_of_le (by omega) (by omega)

/-- From `2^31` on the sum wraps, once. -/
theorem toInt_lsr_add_of_ge {v : Word} {n : Nat} (hn : 0 < n) (h : 2 ^ 31 ≤ (lsr v n).toNat + v.toInt) :
    (lsr v n + v).toInt = (lsr v n).toNat + v.toInt - 2 ^ 32 := by
  have ht := toNat_lsr_lt v hn
  have hv : v.toInt < 2 ^ 31 := BitVec.toInt_lt
  rw [toInt_lsr_add v hn, ← Int.sub_bmod_right]
  exact Int.bmod_eq_of_le (by omega) (by omega)

/-- Settles O5: `asr` is the floor, and the sum of the words is the reduced sum of the integers. -/
theorem rshiftValue : Obligations.RshiftValue := by
  intro a b _ hb
  rw [rshift, toInt_asr, toInt_lsr_add a (by omega), toNat_lsr, BitVec.toInt_ofInt]

/-- Settles O8: the sum is exact below `2^31` and less by `2^32` from there on, where it is negative, and so is its floor. -/
theorem rshiftWrapsAboveTheBand : Obligations.RshiftWrapsAboveTheBand := by
  refine ⟨fun a b _ hb _ => ⟨⟨fun hne => ?_, fun h heq => ?_⟩, fun h => ?_⟩, by decide, by decide, by decide⟩
  · by_contra hlt
    exact hne (toInt_lsr_add_of_lt (by omega) (not_le.mp hlt))
  · have hwrap := toInt_lsr_add_of_ge (by omega) h
    omega
  · have ht := toNat_lsr_lt a (n := 32 - b) (by omega)
    have ha : a.toInt < 2 ^ 31 := BitVec.toInt_lt
    rw [rshift, toInt_asr, toInt_lsr_add_of_ge (by omega) h]
    exact Int.ediv_neg_of_neg_of_pos (by omega) (by positivity)

/-! ### RSHIFT inside its band (40_rounding_shift.md R122, R123, R127) -/

/-- In the band, a value that is not negative has no bit among its top b. -/
theorem toNat_lsr_of_nonneg {a : Word} {b : Nat} (ha : 0 ≤ a.toInt) (hhi : a.toInt < 2 ^ (32 - b)) :
    (lsr a (32 - b)).toNat = 0 := by
  rw [BitVec.toInt_eq_toNat_of_lt (BitVec.toInt_pos_iff.mp ha)] at hhi
  rw [toNat_lsr]
  exact Nat.div_eq_of_lt (by exact_mod_cast hhi)

/-- In the band, a negative value has all its top b bits set. -/
theorem toNat_lsr_of_neg {a : Word} {b : Nat} (hb : b ≤ 32) (hlo : -(2 ^ (32 - b)) ≤ a.toInt) (ha : a.toInt < 0) :
    (lsr a (32 - b)).toNat = 2 ^ b - 1 := by
  have hpow : 2 ^ b * 2 ^ (32 - b) = 2 ^ 32 := pow_mul_pow_sub 2 hb
  have hval : a.toInt = a.toNat - (2 ^ 32 : Nat) := by
    have hmsb := BitVec.toInt_neg_iff.mp ha
    rw [BitVec.toInt_eq_toNat_cond, if_neg (by omega)]
  rw [toNat_lsr]
  apply Nat.div_eq_of_lt_le
  · have hlo' : 2 ^ 32 ≤ a.toNat + 2 ^ (32 - b) := by zify; omega
    rw [Nat.sub_mul, hpow]
    omega
  · rw [Nat.sub_add_cancel Nat.one_le_two_pow, hpow]
    exact a.isLt

/-- Adding `q - 1` before the floor rounds a negative value toward zero. -/
theorem sub_one_add_ediv_of_neg {a q : Int} (ha : a < 0) (hq : 0 < q) : (q - 1 + a) / q = a.tdiv q := by
  have hle := Int.ediv_mul_le (-a) hq.ne'
  have hlt := Int.lt_ediv_add_one_mul_self (-a) hq
  rw [← neg_neg a, Int.neg_tdiv, Int.tdiv_eq_ediv_of_nonneg (by omega), neg_neg, Int.ediv_eq_iff_of_pos hq, Int.neg_mul]
  rw [Int.add_mul] at hlt
  omega

/-- Below the divisor in magnitude the truncated quotient is zero. -/
theorem tdiv_eq_zero_of_magnitude_lt {a q : Int} (hlo : -q < a) (hhi : a < q) : a.tdiv q = 0 := by
  rcases lt_or_ge a 0 with hneg | hpos
  · rw [← neg_neg a, Int.neg_tdiv, Int.tdiv_eq_zero_of_lt (by omega) (by omega), neg_zero]
  · exact Int.tdiv_eq_zero_of_lt hpos hhi

/-- Below the upper end of the band the sum of RSHIFT lies below `2^31`: one of its two terms is zero or negative. -/
theorem lsr_add_lt_of_lt {a : Word} {b : Nat} (hb : 1 ≤ b) (hb' : b ≤ 31) (hhi : a.toInt < 2 ^ (32 - b)) :
    (lsr a (32 - b)).toNat + a.toInt < 2 ^ 31 := by
  rcases lt_or_ge a.toInt 0 with hneg | hpos
  · have ht := toNat_lsr_lt a (n := 32 - b) (by omega)
    omega
  · have ha : a.toInt < 2 ^ 31 := BitVec.toInt_lt
    rw [toNat_lsr_of_nonneg hpos hhi]
    omega

/-- Settles O6: the addend is 0 on the band's upper half and `2^b - 1` on its lower, and the sum does not wrap. -/
theorem rshiftRoundsTowardZero : Obligations.RshiftRoundsTowardZero := by
  intro a b hb hb' hlo hhi
  rw [rshift, toInt_asr, toInt_lsr_add_of_lt (by omega) (lsr_add_lt_of_lt hb hb' hhi)]
  rcases lt_or_ge a.toInt 0 with hneg | hpos
  · rw [toNat_lsr_of_neg (by omega) hlo hneg]
    push_cast [Nat.one_le_two_pow]
    exact sub_one_add_ediv_of_neg hneg (by positivity)
  · rw [toNat_lsr_of_nonneg hpos hhi, Int.tdiv_eq_ediv_of_nonneg hpos, Nat.cast_zero, zero_add]

/-- Settles O7: for b = 1 the band is all of int32. -/
theorem halvingRoundsTowardZero : Obligations.HalvingRoundsTowardZero := by
  refine ⟨fun a => ?_, by decide, by decide⟩
  have hlo : -(2 ^ 31) ≤ a.toInt := BitVec.le_toInt a
  have hhi : a.toInt < 2 ^ 31 := BitVec.toInt_lt
  refine ⟨rshiftRoundsTowardZero a 1 le_rfl (by omega) hlo hhi, ?_, ?_⟩
  · split_ifs with hneg
    · exact BitVec.eq_of_toNat_eq (toNat_lsr_of_neg (b := 1) (by omega) hlo hneg)
    · exact BitVec.eq_of_toNat_eq (toNat_lsr_of_nonneg (b := 1) (not_lt.mp hneg) hhi)
  · rw [toInt_lsr a (by omega)]
    exact toInt_lsr_add_of_lt (by omega) (lsr_add_lt_of_lt (b := 1) le_rfl (by omega) hhi)

/-- In the band RSHIFT is the word of the truncated quotient. -/
theorem rshift_eq_ofInt_tdiv {a : Word} {b : Nat} (hb : 1 ≤ b) (hb' : b ≤ 31) (hlo : -(2 ^ (32 - b)) ≤ a.toInt)
    (hhi : a.toInt < 2 ^ (32 - b)) : rshift a b = BitVec.ofInt 32 (a.toInt.tdiv (2 ^ b)) := by
  rw [← rshiftRoundsTowardZero a b hb hb' hlo hhi, BitVec.ofInt_toInt]

/-- Every word but the least is negated exactly. -/
theorem toInt_neg_of_lt {a : Word} (h : -(2 ^ 31) < a.toInt) : (-a).toInt = -a.toInt := by
  apply BitVec.toInt_neg_of_ne_intMin
  rintro rfl
  exact absurd h (by decide)

/-- Settles O9: truncated division is odd and non-decreasing, and 0 on magnitudes below the divisor. -/
theorem rshiftOddAndMonotone : Obligations.RshiftOddAndMonotone := by
  intro b hb hb'
  have hpow : (2 : Int) ^ (32 - b) ≤ 2 ^ 31 := pow_le_pow_right₀ (by omega) (by omega)
  refine ⟨fun a hlo hhi => ?_, fun a a' hlo hle hhi => ?_, fun a hlo hhi hlo' hhi' => ?_⟩
  · have hneg : (-a).toInt = -a.toInt := toInt_neg_of_lt ((neg_le_neg hpow).trans_lt hlo)
    rw [rshift_eq_ofInt_tdiv hb hb' (by omega) (by omega), hneg, Int.neg_tdiv, BitVec.ofInt_neg,
      rshift_eq_ofInt_tdiv hb hb' hlo.le hhi]
  · rw [rshiftRoundsTowardZero a b hb hb' hlo (by omega), rshiftRoundsTowardZero a' b hb hb' (by omega) hhi]
    exact Int.tdiv_le_tdiv (by positivity) hle
  · rw [rshift_eq_ofInt_tdiv hb hb' hlo hhi, tdiv_eq_zero_of_magnitude_lt hlo' hhi']
    rfl

/-! ### The RSH command (40_rounding_shift.md R126) -/

/-- Settles O44: RSH answers the completion of one write, without overflow events. -/
theorem rshCompletes : Obligations.RshCompletes := by
  intro s src dst b a hb ha
  refine ⟨_, exec_rsh_eq_next.mpr ⟨hb, a, ha, rfl⟩, ?_, fun x hx => ?_, complete_completed _ _ s, complete_report _ [] s,
    complete_work _ _ s⟩
  · rw [complete_buf, read_write_same]
  · rw [complete_buf, read_write_ne _ hx.symm]

end Sys2Proof.Machine

namespace Sys2Proof.Machine

/-! ### LIFT over integers (41_forward.md R147, 90_conflicts.md C1) -/

/-- The product and the offset are added as integers: both sums of LIFT wrap to one reduction. -/
theorem lift_eq_asr_ofInt (c : LiftConst) (v : Word) :
    lift c v = asr (BitVec.ofInt 32 (v.toInt * (c.m.toNat : Int) + 2 ^ (c.s.toNat - 1))) c.s.toNat := by
  have hm : BitVec.ofInt 32 (c.m.toNat : Int) = c.m.setWidth 32 := by
    rw [BitVec.ofInt_natCast, BitVec.ofNat_toNat]
  have ho : BitVec.ofInt 32 (2 ^ (c.s.toNat - 1)) = BitVec.ofNat 32 (liftOffset c) := by
    rw [liftOffset, ← BitVec.ofInt_natCast, Nat.cast_pow, Nat.cast_ofNat]
  rw [lift, BitVec.ofInt_add, BitVec.ofInt_mul, BitVec.ofInt_toInt, hm, ho]

/-- An integer in int32 is the value of its word. -/
theorem toInt_ofInt_of_mem {n : Int} (hlo : -(2 ^ 31) ≤ n) (hhi : n < 2 ^ 31) : (BitVec.ofInt 32 n).toInt = n := by
  rw [BitVec.toInt_ofInt]
  exact Int.bmod_eq_of_le (by omega) (by omega)

/-- Without a reduction LIFT is the product and the offset, floored. -/
theorem toInt_lift_of_mem {c : LiftConst} {v : Word} (hlo : -(2 ^ 31) ≤ v.toInt * (c.m.toNat : Int) + 2 ^ (c.s.toNat - 1))
    (hhi : v.toInt * (c.m.toNat : Int) + 2 ^ (c.s.toNat - 1) < 2 ^ 31) :
    (lift c v).toInt = (v.toInt * (c.m.toNat : Int) + 2 ^ (c.s.toNat - 1)) / 2 ^ c.s.toNat := by
  rw [lift_eq_asr_ofInt, toInt_asr, toInt_ofInt_of_mem hlo hhi]

/-- Settles O10: `asr` is the floor of the one reduced sum. -/
theorem liftValue : Obligations.LiftValue := by
  intro c v _
  exact ⟨by rw [lift_eq_asr_ofInt, toInt_asr], toInt_lift_of_mem⟩

theorem liftOverflows_eq_false_iff (c : LiftConst) (v : Word) : liftOverflows c v = false ↔ ¬ LeavesInt32 c v := by
  rw [← Bool.not_eq_true, liftOverflows_iff]

/-- Settles O11: doubling the multiplier doubles the sum, which is then floored to twice the divisor. -/
theorem liftThirteenBitsAsFourteen : Obligations.LiftThirteenBitsAsFourteen := by
  intro m v hm hno
  have hprod : v.toInt * ((m + m).toNat : Int) = 2 * (v.toInt * (m.toNat : Int)) := by
    rw [BitVec.toNat_add, Nat.mod_eq_of_lt (by omega)]
    push_cast
    ring
  obtain ⟨-, -, hlo, hhi⟩ := not_not.mp ((liftOverflows_eq_false_iff _ _).mp hno)
  have h14 : (lift ⟨m + m, 14⟩ v).toInt = (v.toInt * ((m + m).toNat : Int) + 2 ^ 13) / 2 ^ 14 :=
    toInt_lift_of_mem hlo (Int.lt_of_le_sub_one hhi)
  change -(2 ^ 31) ≤ v.toInt * ((m + m).toNat : Int) + 2 ^ 13 at hlo
  change v.toInt * ((m + m).toNat : Int) + 2 ^ 13 ≤ 2 ^ 31 - 1 at hhi
  rw [hprod] at h14 hlo hhi
  have h13 : (lift ⟨m, 13⟩ v).toInt = (v.toInt * (m.toNat : Int) + 2 ^ 12) / 2 ^ 13 :=
    toInt_lift_of_mem (show -(2 ^ 31) ≤ v.toInt * (m.toNat : Int) + 2 ^ 12 by omega)
      (show v.toInt * (m.toNat : Int) + 2 ^ 12 < 2 ^ 31 by omega)
  apply BitVec.eq_of_toInt_eq
  rw [h13, h14]
  omega

/-- Settles O24: LIFT is constant, so both parts are evaluated. -/
theorem liftRegistersHoldTheTable : Obligations.LiftRegistersHoldTheTable :=
  ⟨by decide, fun _ => rfl⟩

/-! ### The FDCT8 command (41_forward.md R152, R153) -/

theorem contiguous_addr (base : Addr) (k : Fin 8) : (contiguous base).addr k = base + BitVec.ofNat 8 k.val := by
  simp [contiguous, Strided.addr]

/-- The eight words from a base are at distinct addresses. -/
theorem contiguous_addr_inj (base : Addr) (i j : Fin 8) (h : (contiguous base).addr i = (contiguous base).addr j) :
    i = j := by
  simp only [contiguous_addr, BitVec.add_right_inj] at h
  have := congrArg BitVec.toNat h
  simp only [BitVec.toNat_ofNat] at this
  omega

/-- FDCT8 whose input words are written runs its one line. -/
theorem exec_fdct8 {s : State} {src dst stride : Addr} {x : Vec8}
    (hx : ∀ i : Fin 8, s.buf.read (src + BitVec.ofNat 8 i.val * stride) = some (vecGet x i)) :
    exec (.fdct8 src dst stride) s =
      .next (complete (s.buf.writeAll (vecWrites (contiguous dst) (fdct liftTable x)))
        (overflowEvents liftTable .fwd 0 false 0 (fdctUses liftTable x)) (leaveWork s)) := by
  have hload : s.buf.loadVec ⟨src, stride⟩ = some x := (loadVec_eq_some _ _ _).mpr hx
  refine exec_kernel_of_lines rfl ((loadVec_isSome _ _).mp ⟨x, hload⟩) ?_
  exact runLines_cons_eq_some.mpr ⟨_, _, _, runLine_eq_some.mpr ⟨x, hload, rfl, rfl⟩, rfl, (List.append_nil _).symm⟩

/-- Settles O45: the one line is read back, and its events are the completion's. -/
theorem fdct8Completes : Obligations.Fdct8Completes := by
  intro s src dst stride x hx
  obtain ⟨hc, hr⟩ := complete_leaveWork_fields (s.buf.writeAll (vecWrites (contiguous dst) (fdct liftTable x)))
    (overflowEvents liftTable .fwd 0 false 0 (fdctUses liftTable x)) s
  refine ⟨_, exec_fdct8 hx, fun k => ?_, fun a ha => ?_, hc, hr⟩
  · rw [complete_buf, ← contiguous_addr]
    exact read_store _ _ _ (contiguous_addr_inj dst) k
  · rw [complete_buf]
    refine read_store_of_notMem _ _ _ _ fun hmem => ?_
    obtain ⟨k, rfl⟩ := (mem_addrs _ _).mp hmem
    exact ha k (contiguous_addr dst k)

/-- A FDCT8 that completes has read eight written words. -/
theorem exec_fdct8_reads {s t : State} {src dst stride : Addr} (h : exec (.fdct8 src dst stride) s = .next t) :
    ∃ x : Vec8, ∀ i : Fin 8, s.buf.read (src + BitVec.ofNat 8 i.val * stride) = some (vecGet x i) := by
  obtain ⟨hread, -⟩ := execLines_eq_next.mp ((exec_kernel rfl s).symm.trans h)
  obtain ⟨x, hx⟩ := (loadVec_isSome s.buf ⟨src, stride⟩).mpr hread
  exact ⟨x, (loadVec_eq_some _ _ _).mp hx⟩

/-- Settles O54: both runs read one vector, so by `fdct8Completes` both write FDCT of it. -/
theorem strideIndependence : Obligations.StrideIndependence := by
  intro s s' t t' src src' dst dst' stride stride' hsame h h' k
  obtain ⟨x, hx⟩ := exec_fdct8_reads h
  obtain ⟨u, hu, hout, -⟩ := fdct8Completes s src dst stride x hx
  obtain ⟨u', hu', hout', -⟩ := fdct8Completes s' src' dst' stride' x fun i => (hsame i).symm.trans (hx i)
  obtain rfl := Host.Outcome.next.inj (hu.symm.trans h)
  obtain rfl := Host.Outcome.next.inj (hu'.symm.trans h')
  rw [hout, hout']

/-! ### The overflow check (41_forward.md R155) -/

/-- The same BUF and the same registers but for the overflow report and the snapshot. -/
def SameButOverflowReport (t' t : State) : Prop :=
  t'.buf = t.buf ∧
    { t' with chk := t.chk, status := { t'.status with ovf := t.status.ovf }, ovfInfo := t.ovfInfo, ovfVal := t.ovfVal } = t

/-- A completion's other fields do not depend on the snapshot. -/
theorem complete_sameButOverflowReport (m : Memory) (evs : List OverflowEvent) (s : State) (b : Bool) :
    SameButOverflowReport (complete m evs { s with chk := b }) (complete m evs s) := by
  obtain ⟨_, _, ⟨_, _, _, ovf⟩, _, _, _, _, _, chk, _⟩ := s
  refine ⟨by simp only [complete_buf], ?_⟩
  cases evs with
  | nil => cases chk <;> cases b <;> rfl
  | cons e evs => cases chk <;> cases b <;> cases ovf <;> rfl

/-- Settles O52: a command reads no snapshot before its completion. -/
theorem overflowCheckNeverChangesResults : Obligations.OverflowCheckNeverChangesResults := by
  intro i s t b h
  rcases exec_next_cases h with ⟨rfl, rfl⟩ | ⟨src, dst, c, a, rfl, hc, ha, rfl⟩ | ⟨d, m, evs, hd, hm, hr, rfl⟩
  · exact ⟨_, exec_nop _, complete_sameButOverflowReport _ _ s b⟩
  · exact ⟨_, exec_rsh_eq_next.mpr ⟨hc, a, ha, rfl⟩, complete_sameButOverflowReport _ _ s b⟩
  · exact ⟨_, exec_kernel_of_lines hd hr hm, complete_sameButOverflowReport m evs (leaveWork s) b⟩

/-! ### The overflow events of a kernel (41_forward.md R148, 42_inverse.md R184) -/

/-- Lifting steps with the constants `σ j` of an injective numbering are given by their operand values `v j`. -/
theorem exists_uses_eq_map {us : List LiftUse} {σ : Fin 15 → Fin 15} (hσ : Function.Injective σ)
    (hk : us.map LiftUse.k = (List.finRange 15).map σ) :
    ∃ v : Fin 15 → Word, us = (List.finRange 15).map (fun j => ⟨σ j, v j⟩) ∧ ∀ j a, ⟨σ j, a⟩ ∈ us → v j = a := by
  have hlen : us.length = 15 := by simpa using congrArg List.length hk
  have hus : us = (List.finRange 15).map fun j => ⟨σ j, us[j.val].value⟩ := by
    refine List.ext_getElem (by simp [hlen]) fun n hn _ => ?_
    have hkn : us[n].k = σ ⟨n, hlen ▸ hn⟩ := by
      rw [← List.getElem_map LiftUse.k (h := by simpa using hn)]
      simp [hk]
    simp [← hkn]
  refine ⟨_, hus, fun j a hmem => ?_⟩
  rw [hus, List.mem_map] at hmem
  obtain ⟨i, -, hi⟩ := hmem
  obtain ⟨hij, rfl⟩ := LiftUse.mk.inj hi
  rw [hσ hij]

/-- The events of lifting steps that are given by their constants and operand values. -/
theorem overflowEvents_map_finRange (T : LiftTable) (d : Dir) (line : BitVec 3) (pass : Bool) (σ : Fin 15 → Fin 15)
    (v : Fin 15 → Word) :
    overflowEvents T d line pass 0 ((List.finRange 15).map fun j => ⟨σ j, v j⟩) = (List.finRange 15).filterMap fun j =>
      if LeavesInt32 (T (σ j)) (v j) then some ⟨BitVec.ofNat 4 j.val, d, line, pass, v j⟩ else none := by
  have hzip : (List.finRange 15).zipIdx = (List.finRange 15).map fun j => (j, j.val) := by decide
  rw [overflowEvents_eq_filterMap, List.zipIdx_map, hzip, List.map_map, List.filterMap_map]
  rfl

/-- The events of a microprogram whose j-th lifting step has the constant `σ j`. -/
theorem overflowEvents_liftUses (T : LiftTable) (d : Dir) (line : BitVec 3) (pass : Bool) {σ : Fin 15 → Fin 15}
    (hσ : Function.Injective σ) {ops : List MicroStep} {w : Work}
    (hk : (liftUses T ops w).map LiftUse.k = (List.finRange 15).map σ) :
    ∃ v : Fin 15 → Word,
      (∀ (pre post : List MicroStep) (dst p : Reg) (j : Fin 15),
        (ops = pre ++ .liftAdd dst p (σ j) :: post ∨ ops = pre ++ .liftSub dst p (σ j) :: post) →
        v j = getReg (runMicro T pre w) p) ∧
      overflowEvents T d line pass 0 (liftUses T ops w) = (List.finRange 15).filterMap fun j =>
        if LeavesInt32 (T (σ j)) (v j) then some ⟨BitVec.ofNat 4 j.val, d, line, pass, v j⟩ else none := by
  obtain ⟨v, huses, hv⟩ := exists_uses_eq_map hσ hk
  refine ⟨v, fun pre post dst p j h => hv j _ ?_, ?_⟩
  · rcases h with rfl | rfl
    · exact liftUse_mem T pre post _ w (.inl rfl)
    · exact liftUse_mem T pre post _ w (.inr rfl)
  · rw [huses, overflowEvents_map_finRange]

/-- Settles O60: the constants' numbering is the identity in the forward program and the reversal in the inverse. -/
theorem overflowEventsOfAKernel : Obligations.OverflowEventsOfAKernel := fun T _ line pass =>
  ⟨overflowEvents_liftUses T .fwd line pass (σ := id) Function.injective_id rfl,
    overflowEvents_liftUses T .inv line pass Fin.rev_injective rfl⟩

/-! ### Affine forms of the eight inputs (41_forward.md R159) -/

/-- An affine form: exact coefficients of the inputs, and a bound for what halving and LIFT have rounded. -/
structure AffineForm where
  coeff : Fin 8 → ℚ
  err : ℚ

/-- The form's value without rounding. -/
def AffineForm.linear (f : AffineForm) (x : Vec8) : ℚ := ∑ i, f.coeff i * (vecGet x i).toInt

/-- The integer is the form's value up to its rounding. -/
def AffineForm.Covers (f : AffineForm) (x : Vec8) (n : Int) : Prop := |(n : ℚ) - f.linear x| ≤ f.err

/-- The magnitude that a form reaches on inputs within `B`. -/
def AffineForm.bound (f : AffineForm) (B : Int) : ℚ := (∑ i, |f.coeff i|) * B + f.err

/-- The form of the half registers' start value. -/
def AffineForm.zero : AffineForm := ⟨fun _ => 0, 0⟩

/-- The form of one input. -/
def AffineForm.input (i : Fin 8) : AffineForm := ⟨fun j => if j = i then 1 else 0, 0⟩

/-- The form of a sum: the roundings of its terms may add up. -/
def AffineForm.add (f g : AffineForm) : AffineForm := ⟨fun i => f.coeff i + g.coeff i, f.err + g.err⟩

/-- The form of a difference: the roundings of its terms may add up. -/
def AffineForm.sub (f g : AffineForm) : AffineForm := ⟨fun i => f.coeff i - g.coeff i, f.err + g.err⟩

/-- `m / d` of the form, rounded to a nearest integer. -/
def AffineForm.rounded (m d : Nat) (f : AffineForm) : AffineForm :=
  ⟨fun i => m / d * f.coeff i, m / d * f.err + 1 / 2⟩

theorem AffineForm.linear_add (f g : AffineForm) (x : Vec8) : (f.add g).linear x = f.linear x + g.linear x := by
  simp only [linear, add, add_mul, Finset.sum_add_distrib]

theorem AffineForm.linear_sub (f g : AffineForm) (x : Vec8) : (f.sub g).linear x = f.linear x - g.linear x := by
  simp only [linear, sub, sub_mul, Finset.sum_sub_distrib]

theorem AffineForm.linear_rounded (m d : Nat) (f : AffineForm) (x : Vec8) :
    (f.rounded m d).linear x = m / d * f.linear x := by
  simp only [linear, rounded, mul_assoc, Finset.mul_sum]

theorem AffineForm.covers_zero (x : Vec8) : zero.Covers x 0 := by
  simp [Covers, linear, zero]

theorem AffineForm.covers_input (x : Vec8) (i : Fin 8) : (input i).Covers x (vecGet x i).toInt := by
  simp [Covers, linear, input]

theorem AffineForm.Covers.add {f g : AffineForm} {x : Vec8} {m n : Int} (hf : f.Covers x m) (hg : g.Covers x n) :
    (f.add g).Covers x (m + n) := by
  rw [Covers, linear_add, Int.cast_add, add_sub_add_comm]
  exact (abs_add_le _ _).trans (add_le_add hf hg)

theorem AffineForm.Covers.sub {f g : AffineForm} {x : Vec8} {m n : Int} (hf : f.Covers x m) (hg : g.Covers x n) :
    (f.sub g).Covers x (m - n) := by
  rw [Covers, linear_sub, Int.cast_sub, sub_sub_sub_comm]
  exact (abs_sub _ _).trans (add_le_add hf hg)

/-- A nearest integer to `m / d` of a covered one. -/
theorem AffineForm.Covers.rounded {f : AffineForm} {x : Vec8} {n k : Int} {m d : Nat} (hf : f.Covers x n) (hd : 0 < d)
    (hlo : -(d : Int) ≤ 2 * (k * d - m * n)) (hhi : 2 * (k * d - m * n) ≤ (d : Int)) : (f.rounded m d).Covers x k := by
  have hd' : (0 : ℚ) < d := by exact_mod_cast hd
  have hnear : |(k : ℚ) - m / d * n| ≤ 1 / 2 := by
    have hlo' : -(d : ℚ) ≤ 2 * (k * d - m * n) := by exact_mod_cast hlo
    have hhi' : 2 * ((k : ℚ) * d - m * n) ≤ d := by exact_mod_cast hhi
    have hdiff : (k : ℚ) - m / d * n = (k * d - m * n) / d := by field_simp
    rw [hdiff, abs_div, abs_of_pos hd', div_le_iff₀ hd', abs_le]
    constructor <;> linarith
  rw [Covers, linear_rounded]
  calc |(k : ℚ) - m / d * f.linear x| = |m / d * (n - f.linear x) + ((k : ℚ) - m / d * n)| := by ring_nf
    _ ≤ |m / d * (n - f.linear x)| + |(k : ℚ) - m / d * n| := abs_add_le _ _
    _ ≤ m / d * f.err + 1 / 2 := by
      rw [abs_mul, abs_of_nonneg (by positivity : (0 : ℚ) ≤ m / d)]
      exact add_le_add (mul_le_mul_of_nonneg_left hf (by positivity)) hnear

/-- On inputs within `B` a covered integer is within the form's bound. -/
theorem AffineForm.Covers.abs_le_bound {f : AffineForm} {x : Vec8} {n B : Int} (hf : f.Covers x n)
    (hx : ∀ i, within B (vecGet x i)) : |(n : ℚ)| ≤ f.bound B := by
  have hinput : ∀ i, |((vecGet x i).toInt : ℚ)| ≤ B := fun i => by exact_mod_cast abs_le.mpr (hx i)
  have hlin : |f.linear x| ≤ (∑ i, |f.coeff i|) * B := by
    rw [Finset.sum_mul]
    refine (Finset.abs_sum_le_sum_abs _ _).trans (Finset.sum_le_sum fun i _ => ?_)
    rw [abs_mul]
    exact mul_le_mul_of_nonneg_left (hinput i) (abs_nonneg _)
  calc |(n : ℚ)| = |f.linear x + (n - f.linear x)| := by ring_nf
    _ ≤ |f.linear x| + |n - f.linear x| := abs_add_le _ _
    _ ≤ f.bound B := add_le_add hlin hf

/-- Where the form stays in int32, a covered integer is the value of its word. -/
theorem AffineForm.Covers.toInt_ofInt {f : AffineForm} {x : Vec8} {n B : Int} (hf : f.Covers x n)
    (hx : ∀ i, within B (vecGet x i)) (hB : f.bound B < 2 ^ 31) : (BitVec.ofInt 32 n).toInt = n := by
  have h : |n| < 2 ^ 31 := by exact_mod_cast (hf.abs_le_bound hx).trans_lt hB
  obtain ⟨hlo, hhi⟩ := abs_lt.mp h
  exact toInt_ofInt_of_mem hlo.le hhi

theorem AffineForm.Covers.add_word {f g : AffineForm} {x : Vec8} {a b : Word} {B : Int} (hf : f.Covers x a.toInt)
    (hg : g.Covers x b.toInt) (hx : ∀ i, within B (vecGet x i)) (hB : (f.add g).bound B < 2 ^ 31) :
    (f.add g).Covers x (a + b).toInt := by
  have hsum : a + b = BitVec.ofInt 32 (a.toInt + b.toInt) := by simp only [BitVec.ofInt_add, BitVec.ofInt_toInt]
  rw [hsum, (hf.add hg).toInt_ofInt hx hB]
  exact hf.add hg

theorem AffineForm.Covers.sub_word {f g : AffineForm} {x : Vec8} {a b : Word} {B : Int} (hf : f.Covers x a.toInt)
    (hg : g.Covers x b.toInt) (hx : ∀ i, within B (vecGet x i)) (hB : (f.sub g).bound B < 2 ^ 31) :
    (f.sub g).Covers x (a - b).toInt := by
  have hdiff : a - b = BitVec.ofInt 32 (a.toInt - b.toInt) := by
    simp only [Int.sub_eq_add_neg, BitVec.sub_eq_add_neg, BitVec.ofInt_add, BitVec.ofInt_neg, BitVec.ofInt_toInt]
  rw [hdiff, (hf.sub hg).toInt_ofInt hx hB]
  exact hf.sub hg

/-- Halving rounds by at most 1/2 (40_rounding_shift.md R123). -/
theorem AffineForm.Covers.rsh1 {f : AffineForm} {x : Vec8} {a : Word} (hf : f.Covers x a.toInt) :
    (f.rounded 1 2).Covers x (rsh1 a).toInt := by
  obtain ⟨htdiv, -⟩ := halvingRoundsTowardZero.1 a
  have hsplit := Int.mul_tdiv_add_tmod a.toInt 2
  have hlo := Int.lt_tmod_of_pos a.toInt (b := 2) (by decide)
  have hhi := Int.tmod_lt_of_pos a.toInt (b := 2) (by decide)
  rw [htdiv]
  exact hf.rounded (by decide) (by omega) (by omega)

/-- On inputs within `B`, a lifting step whose operand the form covers does not overflow (41_forward.md R148). -/
def liftSafe (c : LiftConst) (B : Int) (f : AffineForm) : Bool :=
  c.s != 0 && decide (f.bound B * c.m.toNat + 2 ^ (c.s.toNat - 1) < 2 ^ 31)

theorem AffineForm.Covers.not_leavesInt32 {f : AffineForm} {x : Vec8} {v : Word} {B : Int} {c : LiftConst}
    (hf : f.Covers x v.toInt) (hx : ∀ i, within B (vecGet x i)) (hsafe : liftSafe c B f = true) :
    ¬ LeavesInt32 c v := by
  simp only [liftSafe, Bool.and_eq_true, decide_eq_true_eq] at hsafe
  obtain ⟨-, hsafe⟩ := hsafe
  have hprod : |(v.toInt : ℚ) * c.m.toNat| ≤ f.bound B * c.m.toNat := by
    rw [abs_mul, Nat.abs_cast]
    exact mul_le_mul_of_nonneg_right (hf.abs_le_bound hx) (Nat.cast_nonneg _)
  have h : |v.toInt * (c.m.toNat : Int)| + 2 ^ (c.s.toNat - 1) < 2 ^ 31 := by
    exact_mod_cast (add_le_add_left hprod _).trans_lt hsafe
  have hO : (0 : Int) < 2 ^ (c.s.toNat - 1) := by positivity
  obtain ⟨hlo, hhi⟩ := abs_lt.mp (show |v.toInt * (c.m.toNat : Int)| < 2 ^ 31 - 2 ^ (c.s.toNat - 1) by omega)
  rw [LeavesInt32, not_not]
  omega

/-- The floor after half the divisor was added is a nearest integer. -/
theorem near_floor_add_half {n h d : Int} (hd : 0 < d) (hh : d = 2 * h) :
    -d ≤ 2 * ((n + h) / d * d - n) ∧ 2 * ((n + h) / d * d - n) ≤ d := by
  have hle := Int.ediv_mul_le (n + h) hd.ne'
  have hlt := Int.lt_ediv_add_one_mul_self (n + h) hd
  rw [Int.add_mul] at hlt
  constructor <;> omega

/-- LIFT rounds by at most 1/2 where it meets no overflow (41_forward.md R147). -/
theorem AffineForm.Covers.lift {f : AffineForm} {x : Vec8} {v : Word} {B : Int} {c : LiftConst}
    (hf : f.Covers x v.toInt) (hx : ∀ i, within B (vecGet x i)) (hsafe : liftSafe c B f = true) :
    (f.rounded c.m.toNat (2 ^ c.s.toNat)).Covers x (lift c v).toInt := by
  have hs : c.s ≠ 0 := by simpa using (Bool.and_eq_true_iff.mp hsafe).1
  have hpow : (2 : Int) ^ c.s.toNat = 2 * 2 ^ (c.s.toNat - 1) := by
    rw [← pow_succ', Nat.sub_add_cancel (by bv_omega)]
  obtain ⟨-, -, hlo, hhi⟩ := not_not.mp (hf.not_leavesInt32 hx hsafe)
  obtain ⟨hnear, hnear'⟩ := near_floor_add_half (n := v.toInt * c.m.toNat) (by positivity) hpow
  rw [toInt_lift_of_mem hlo (Int.lt_of_le_sub_one hhi)]
  refine hf.rounded (by positivity) ?_ ?_ <;> push_cast <;> rw [mul_comm (c.m.toNat : Int)]
  · exact hnear
  · exact hnear'

/-! ### The micro-steps on affine forms -/

/-- An affine form for every working register. -/
abbrev AffineWork := Reg → AffineForm

/-- The form of an ADD or SUB operand. -/
def affineOperand (F : AffineWork) : Operand → AffineForm
  | .reg r => F r
  | .half r => (F r).rounded 1 2

/-- The register that a micro-step writes. -/
def MicroStep.dest : MicroStep → Reg
  | .add d _ _ => d
  | .sub d _ _ => d
  | .half d _ => d
  | .liftAdd d _ _ => d
  | .liftSub d _ _ => d

/-- The form of what a micro-step writes. -/
def affineResult (T : LiftTable) (F : AffineWork) : MicroStep → AffineForm
  | .add _ p q => (affineOperand F p).add (affineOperand F q)
  | .sub _ p q => (affineOperand F p).sub (affineOperand F q)
  | .half _ p => (F p).rounded 1 2
  | .liftAdd d p k => (F d).add ((F p).rounded (T k).m.toNat (2 ^ (T k).s.toNat))
  | .liftSub d p k => (F d).sub ((F p).rounded (T k).m.toNat (2 ^ (T k).s.toNat))

/-- The forms after a micro-step. -/
def affineStep (T : LiftTable) (F : AffineWork) (op : MicroStep) : AffineWork :=
  Function.update F op.dest (affineResult T F op)

/-- On inputs within `B`, a micro-step's result stays in int32, and a lifting step does not overflow. -/
def affineStepSafe (T : LiftTable) (B : Int) (F : AffineWork) (op : MicroStep) : Bool :=
  decide ((affineResult T F op).bound B < 2 ^ 31) &&
    match op with
    | .add _ _ _ => true
    | .sub _ _ _ => true
    | .half _ _ => true
    | .liftAdd _ p k => liftSafe (T k) B (F p)
    | .liftSub _ p k => liftSafe (T k) B (F p)

/-- Every micro-step of a microprogram is safe on inputs within `B`. -/
def affineSafe (T : LiftTable) (B : Int) : List MicroStep → AffineWork → Bool
  | [], _ => true
  | op :: ops, F => affineStepSafe T B F op && affineSafe T B ops (affineStep T F op)

/-- The forms of the permuted load. -/
def forwardForms : AffineWork
  | .t0 => .input 0
  | .t4 => .input 1
  | .t2 => .input 2
  | .t6 => .input 3
  | .t7 => .input 4
  | .t3 => .input 5
  | .t5 => .input 6
  | .t1 => .input 7
  | .h1 => .zero
  | .h4 => .zero
  | .h6 => .zero

/-- Every register is covered by its form. -/
def Tracks (F : AffineWork) (x : Vec8) (w : Work) : Prop := ∀ r, (F r).Covers x (getReg w r).toInt

/-- A working register after a write of the same or of another one. -/
theorem getReg_setReg (w : Work) (d r : Reg) (v : Word) : getReg (setReg w d v) r = if r = d then v else getReg w r := by
  cases d <;> cases r <;> rfl

theorem Tracks.setReg {F : AffineWork} {x : Vec8} {w : Work} {f : AffineForm} {v : Word} (h : Tracks F x w)
    (hv : f.Covers x v.toInt) (d : Reg) : Tracks (Function.update F d f) x (setReg w d v) := by
  intro r
  rw [getReg_setReg, Function.update_apply]
  split_ifs
  · exact hv
  · exact h r

theorem Tracks.operand {F : AffineWork} {x : Vec8} {w : Work} (h : Tracks F x w) (p : Operand) :
    (affineOperand F p).Covers x (operandValue w p).toInt := by
  cases p with
  | reg r => exact h r
  | half r => exact (h r).rsh1

theorem Tracks.microStep {T : LiftTable} {B : Int} {F : AffineWork} {x : Vec8} {w : Work} {op : MicroStep}
    (h : Tracks F x w) (hx : ∀ i, within B (vecGet x i)) (hsafe : affineStepSafe T B F op = true) :
    Tracks (affineStep T F op) x (microStep T w op) := by
  simp only [affineStepSafe, Bool.and_eq_true, decide_eq_true_eq] at hsafe
  obtain ⟨hB, hlift⟩ := hsafe
  cases op with
  | add d p q => exact h.setReg ((h.operand p).add_word (h.operand q) hx hB) d
  | sub d p q => exact h.setReg ((h.operand p).sub_word (h.operand q) hx hB) d
  | half d p => exact h.setReg (h p).rsh1 d
  | liftAdd d p k => exact h.setReg ((h d).add_word ((h p).lift hx hlift) hx hB) d
  | liftSub d p k => exact h.setReg ((h d).sub_word ((h p).lift hx hlift) hx hB) d

theorem Tracks.microUse {T : LiftTable} {B : Int} {F : AffineWork} {x : Vec8} {w : Work} {op : MicroStep}
    (h : Tracks F x w) (hx : ∀ i, within B (vecGet x i)) (hsafe : affineStepSafe T B F op = true) :
    ∀ u ∈ microUse w op, liftOverflows (T u.k) u.value = false := by
  simp only [affineStepSafe, Bool.and_eq_true, decide_eq_true_eq] at hsafe
  obtain ⟨-, hlift⟩ := hsafe
  cases op with
  | add | sub | half => simp [Machine.microUse]
  | liftAdd d p k | liftSub d p k =>
    simpa [Machine.microUse, liftOverflows_eq_false_iff] using (h p).not_leavesInt32 hx hlift

/-- Where a microprogram is safe by its forms, none of its lifting steps overflows. -/
theorem Tracks.liftUses {T : LiftTable} {B : Int} {x : Vec8} (hx : ∀ i, within B (vecGet x i)) {ops : List MicroStep}
    {F : AffineWork} {w : Work} (h : Tracks F x w) (hsafe : affineSafe T B ops F = true) :
    ∀ u ∈ liftUses T ops w, liftOverflows (T u.k) u.value = false := by
  induction ops generalizing F w with
  | nil => simp [Machine.liftUses]
  | cons op ops ih =>
    obtain ⟨hop, hops⟩ := Bool.and_eq_true_iff.mp hsafe
    intro u hu
    exact (List.mem_append.mp hu).elim (h.microUse hx hop u) (ih (h.microStep hx hop) hops u)

theorem tracks_forwardLoad (x : Vec8) : Tracks forwardForms x (forwardLoad x) := by
  intro r
  cases r with
  | t0 => exact AffineForm.covers_input x 0
  | t4 => exact AffineForm.covers_input x 1
  | t2 => exact AffineForm.covers_input x 2
  | t6 => exact AffineForm.covers_input x 3
  | t7 => exact AffineForm.covers_input x 4
  | t3 => exact AffineForm.covers_input x 5
  | t5 => exact AffineForm.covers_input x 6
  | t1 => exact AffineForm.covers_input x 7
  | h1 | h4 | h6 => exact AffineForm.covers_zero x

/-- The affine bounds of F1 to F34, evaluated; the tightest is that of lifting step 5. -/
theorem affineSafe_forward : affineSafe liftTable 37532 forwardProgram forwardForms = true := by
  decide +kernel

/-- Settles O15: the affine bounds of the forward program hold on inputs within 37532. -/
theorem forwardSafeRange : Obligations.ForwardSafeRange := fun x hx =>
  (tracks_forwardLoad x).liftUses hx affineSafe_forward

end Sys2Proof.Machine

namespace Sys2Proof.Machine

/-! ### The half registers read inline (42_inverse.md R182)

A half register is only ever read while the register it was halved from still holds that value, so reading it is computing the
half inline. What is left of a microprogram are steps on t0..t7. -/

/-- The register that a half register is the half of; none for t0..t7. -/
def halvedReg : Reg → Option Reg
  | .h1 => some .t1
  | .h4 => some .t4
  | .h6 => some .t6
  | _ => none

/-- An operand with the half registers computed inline. -/
def Operand.inlined : Operand → Operand
  | .reg r => (halvedReg r).elim (.reg r) .half
  | .half r => .half r

/-- A micro-step with the half registers computed inline; a step that only writes one is left out. -/
def MicroStep.inlined : MicroStep → List MicroStep
  | .add d p q => [.add d p.inlined q.inlined]
  | .sub d p q => [.sub d p.inlined q.inlined]
  | .half _ _ => []
  | .liftAdd d p k => [.liftAdd d p k]
  | .liftSub d p k => [.liftSub d p k]

/-- A microprogram with the half registers computed inline. -/
def inlineHalves (ops : List MicroStep) : List MicroStep := ops.flatMap MicroStep.inlined

/-- An operand that reads t0..t7 or one of the half registers `live`. -/
def Operand.readable (live : List Reg) : Operand → Bool
  | .reg r => halvedReg r = none || r ∈ live
  | .half r => halvedReg r = none

/-- A step that writes a half register from its own register, or one of t0..t7 from readable operands. -/
def MicroStep.readable (live : List Reg) : MicroStep → Bool
  | .add d p q | .sub d p q => halvedReg d = none && p.readable live && q.readable live
  | .half d p => halvedReg d = some p && halvedReg p = none
  | .liftAdd d p _ | .liftSub d p _ => halvedReg d = none && halvedReg p = none

/-- The half registers that hold the half of their register's value after a step, if `live` do before it. -/
def MicroStep.liveAfter (live : List Reg) : MicroStep → List Reg
  | .half d _ => d :: live
  | op => live.filter (halvedReg · ≠ some op.dest)

/-- No half register is read after its register has changed. -/
def halvesReadInTime : List Reg → List MicroStep → Bool
  | _, [] => true
  | live, op :: ops => op.readable live && halvesReadInTime (op.liveAfter live) ops

/-- `w` has the t0..t7 of `v`, and in the half registers `live` the halves of their registers in `v`. -/
def HalvesOf (live : List Reg) (w v : Work) : Prop :=
  ∀ r, halvedReg r = none ∨ r ∈ live → getReg w r = operandValue v (Operand.reg r).inlined

/-- The register that an operand reads. -/
def Operand.source : Operand → Reg
  | .reg r => r
  | .half r => r

theorem operandValue_setReg_of_ne {p : Operand} {d : Reg} (h : p.source ≠ d) (w : Work) (a : Word) :
    operandValue (setReg w d a) p = operandValue w p := by
  cases p with
  | reg r => exact (getReg_setReg w d r a).trans (if_neg h)
  | half r => exact congrArg rsh1 ((getReg_setReg w d r a).trans (if_neg h))

theorem inlined_reg_of_t {r : Reg} (h : halvedReg r = none) : (Operand.reg r).inlined = .reg r := by
  simp [Operand.inlined, h]

theorem HalvesOf.t_eq {live : List Reg} {w v : Work} (h : HalvesOf live w v) {r : Reg} (hr : halvedReg r = none) :
    getReg w r = getReg v r := by
  simpa [inlined_reg_of_t hr, operandValue] using h r (.inl hr)

theorem HalvesOf.mono {live live' : List Reg} {w v : Work} (h : HalvesOf live w v) (hsub : ∀ r ∈ live', r ∈ live) :
    HalvesOf live' w v :=
  fun r hr => h r (hr.imp_right (hsub r))

theorem HalvesOf.operand {live : List Reg} {w v : Work} (h : HalvesOf live w v) {p : Operand}
    (hp : p.readable live = true) : operandValue w p = operandValue v p.inlined := by
  cases p with
  | reg r => exact h r (by simpa [Operand.readable] using hp)
  | half r => exact congrArg rsh1 (h.t_eq (by simpa [Operand.readable] using hp))

/-- Writing one of t0..t7 outdates the half registers of that register and no other. -/
theorem HalvesOf.setReg {live : List Reg} {w v : Work} (h : HalvesOf live w v) {d : Reg} (hd : halvedReg d = none)
    (a : Word) : HalvesOf (live.filter (halvedReg · ≠ some d)) (setReg w d a) (setReg v d a) := by
  intro r hr
  by_cases hrd : r = d
  · rw [hrd, inlined_reg_of_t hd]
    simp [operandValue, getReg_setReg]
  · have hsource : (Operand.reg r).inlined.source ≠ d := by
      cases hs : halvedReg r with
      | none => simpa [Operand.inlined, hs, Operand.source] using hrd
      | some p =>
        simp only [hs, List.mem_filter, reduceCtorEq, false_or, decide_eq_true_eq, ne_eq, Option.some.injEq] at hr
        simpa [Operand.inlined, hs, Operand.source] using hr.2
    rw [getReg_setReg, if_neg hrd, operandValue_setReg_of_ne hsource]
    exact h r (hr.imp_right List.mem_of_mem_filter)

theorem HalvesOf.half {live : List Reg} {w v : Work} (h : HalvesOf live w v) {d p : Reg} (hd : halvedReg d = some p)
    (hp : halvedReg p = none) : HalvesOf (d :: live) (Machine.setReg w d (rsh1 (getReg w p))) v := by
  intro r hr
  rw [getReg_setReg]
  split_ifs with hrd
  · rw [hrd, h.t_eq hp]
    simp [Operand.inlined, hd, operandValue]
  · exact h r (hr.imp_right (List.mem_of_ne_of_mem hrd))

/-- One step beside its inlined form: the registers it leaves, and the lifting step that it is. -/
theorem HalvesOf.microStep (T : LiftTable) {live : List Reg} {w v : Work} (h : HalvesOf live w v) {op : MicroStep}
    (hop : op.readable live = true) :
    HalvesOf (op.liveAfter live) (microStep T w op) (runMicro T op.inlined v) ∧ microUse w op = liftUses T op.inlined v := by
  cases op with
  | add d p q | sub d p q =>
    obtain ⟨⟨hd, hp⟩, hq⟩ : (halvedReg d = none ∧ p.readable live = true) ∧ q.readable live = true := by
      simpa [MicroStep.readable] using hop
    refine ⟨?_, rfl⟩
    simp only [Machine.microStep, h.operand hp, h.operand hq]
    exact h.setReg hd _
  | half d p =>
    obtain ⟨hd, hp⟩ : halvedReg d = some p ∧ halvedReg p = none := by simpa [MicroStep.readable] using hop
    exact ⟨h.half hd hp, rfl⟩
  | liftAdd d p k | liftSub d p k =>
    obtain ⟨hd, hp⟩ : halvedReg d = none ∧ halvedReg p = none := by simpa [MicroStep.readable] using hop
    simp only [Machine.microStep, microUse, h.t_eq hd, h.t_eq hp]
    exact ⟨h.setReg hd _, rfl⟩

/-- A microprogram and its inlined form leave the same t0..t7 and take the same lifting steps. -/
theorem HalvesOf.runMicro (T : LiftTable) {ops : List MicroStep} {live : List Reg} {w v : Work} (h : HalvesOf live w v)
    (hops : halvesReadInTime live ops = true) :
    HalvesOf [] (runMicro T ops w) (runMicro T (inlineHalves ops) v) ∧
      liftUses T ops w = liftUses T (inlineHalves ops) v := by
  induction ops generalizing live w v with
  | nil => exact ⟨h.mono (by simp), rfl⟩
  | cons op ops ih =>
    obtain ⟨hop, hops⟩ := Bool.and_eq_true_iff.mp hops
    obtain ⟨hstep, huse⟩ := h.microStep T hop
    obtain ⟨hrun, huses⟩ := ih hstep hops
    rw [inlineHalves, List.flatMap_cons, runMicro_append, liftUses_append, Machine.liftUses, huse, huses]
    exact ⟨hrun, rfl⟩

/-- F1 to F34 on t0..t7 alone. -/
def forwardSteps : List MicroStep := inlineHalves forwardProgram

/-- I1 to I34 on t0..t7 alone. -/
def inverseSteps : List MicroStep := inlineHalves inverseProgram

theorem HalvesOf.forwardStore_eq {live : List Reg} {w v : Work} (h : HalvesOf live w v) : forwardStore w = forwardStore v := by
  have ht : ∀ r, halvedReg r = none → getReg w r = getReg v r := fun _ => h.t_eq
  simp only [forwardStore, Vec8.mk.injEq]
  exact ⟨ht .t0 rfl, ht .t1 rfl, ht .t2 rfl, ht .t3 rfl, ht .t4 rfl, ht .t5 rfl, ht .t6 rfl, ht .t7 rfl⟩

theorem HalvesOf.inverseStore_eq {live : List Reg} {w v : Work} (h : HalvesOf live w v) : inverseStore w = inverseStore v := by
  have ht : ∀ r, halvedReg r = none → getReg w r = getReg v r := fun _ => h.t_eq
  simp only [inverseStore, Vec8.mk.injEq]
  exact ⟨ht .t0 rfl, ht .t4 rfl, ht .t2 rfl, ht .t6 rfl, ht .t7 rfl, ht .t3 rfl, ht .t5 rfl, ht .t1 rfl⟩

/-- Working registers with the same t0..t7. -/
abbrev SameT (w v : Work) : Prop := HalvesOf [] w v

theorem sameT_refl (w : Work) : SameT w w := fun r hr => by
  rw [inlined_reg_of_t (hr.resolve_right List.not_mem_nil)]
  rfl

/-- The forward load undoes the inverse store (42_inverse.md R183). -/
theorem sameT_forwardLoad_inverseStore (w : Work) : SameT (forwardLoad (inverseStore w)) w := by
  intro r hr
  cases r with
  | h1 | h4 | h6 => simp [halvedReg] at hr
  | _ => rfl

/-- The inverse load undoes the forward store (42_inverse.md R181). -/
theorem sameT_inverseLoad_forwardStore (w : Work) : SameT (inverseLoad (forwardStore w)) w := by
  intro r hr
  cases r with
  | h1 | h4 | h6 => simp [halvedReg] at hr
  | _ => rfl

/-- FDCT is its 31 steps, from any working registers with the loaded t0..t7. -/
theorem fdct_of_sameT (T : LiftTable) {x : Vec8} {v : Work} (h : SameT (forwardLoad x) v) :
    fdct T x = forwardStore (runMicro T forwardSteps v) ∧ fdctUses T x = liftUses T forwardSteps v := by
  obtain ⟨hrun, huses⟩ := h.runMicro T (ops := forwardProgram) (by decide)
  exact ⟨hrun.forwardStore_eq, huses⟩

/-- IDCT is its 31 steps, from any working registers with the loaded t0..t7. -/
theorem idct_of_sameT (T : LiftTable) {y : Vec8} {v : Work} (h : SameT (inverseLoad y) v) :
    idct T y = inverseStore (runMicro T inverseSteps v) ∧ idctUses T y = liftUses T inverseSteps v := by
  obtain ⟨hrun, huses⟩ := h.runMicro T (ops := inverseProgram) (by decide)
  exact ⟨hrun.inverseStore_eq, huses⟩

/-! ### Undoing a microprogram (42_inverse.md R182, R187, R188) -/

/-- The step that undoes a step: the opposite sign, or the step itself where its register is the subtrahend. -/
def MicroStep.undo : MicroStep → MicroStep
  | .add d p q => .sub d p q
  | .sub d p q => if p = .reg d then .add d p q else .sub d p q
  | .half d p => .half d p
  | .liftAdd d p k => .liftSub d p k
  | .liftSub d p k => .liftAdd d p k

/-- A step that combines its own register with an operand from another one. -/
def MicroStep.undoable : MicroStep → Bool
  | .add d p q => p = .reg d && q.source ≠ d
  | .sub d p q => (p = .reg d && q.source ≠ d) || (q = .reg d && p.source ≠ d)
  | .half _ _ => false
  | .liftAdd d p _ | .liftSub d p _ => p ≠ d

/-- The steps that undo a microprogram, last step first. -/
def mirror (ops : List MicroStep) : List MicroStep := (ops.map MicroStep.undo).reverse

/-- Putting a register's old value back restores all working registers. -/
theorem setReg_setReg_getReg (w : Work) (d : Reg) (a : Word) : setReg (setReg w d a) d (getReg w d) = w := by
  cases d <;> rfl

theorem microStep_undo (T : LiftTable) (w : Work) {op : MicroStep} (h : op.undoable = true) :
    microStep T (microStep T w op) op.undo = w := by
  cases op with
  | add d p q =>
    obtain ⟨rfl, hq⟩ : p = .reg d ∧ q.source ≠ d := by simpa [MicroStep.undoable] using h
    simp only [MicroStep.undo, microStep, operandValue_setReg_of_ne hq]
    simp [operandValue, getReg_setReg, setReg_setReg_getReg]
  | sub d p q =>
    obtain ⟨rfl, hq⟩ | ⟨rfl, hp⟩ : (p = .reg d ∧ q.source ≠ d) ∨ (q = .reg d ∧ p.source ≠ d) := by
      simpa [MicroStep.undoable] using h
    · simp only [MicroStep.undo, if_pos, microStep, operandValue_setReg_of_ne hq]
      simp [operandValue, getReg_setReg, setReg_setReg_getReg]
    · have hpd : p ≠ .reg d := by rintro rfl; exact hp rfl
      simp only [MicroStep.undo, if_neg hpd, microStep, operandValue_setReg_of_ne hp]
      simp [operandValue, getReg_setReg, setReg_setReg_getReg]
  | half d p => simp [MicroStep.undoable] at h
  | liftAdd d p k | liftSub d p k =>
    have hp : p ≠ d := by simpa [MicroStep.undoable] using h
    simp [MicroStep.undo, microStep, getReg_setReg, hp, setReg_setReg_getReg]

/-- The undo step reads the operand value that the step read, with the same constant. -/
theorem microUse_undo (T : LiftTable) (w : Work) {op : MicroStep} (h : op.undoable = true) :
    microUse (microStep T w op) op.undo = microUse w op := by
  cases op with
  | add d p q => rfl
  | sub d p q => rw [MicroStep.undo]; split_ifs <;> rfl
  | half d p => simp [MicroStep.undoable] at h
  | liftAdd d p k | liftSub d p k =>
    have hp : p ≠ d := by simpa [MicroStep.undoable] using h
    simp [MicroStep.undo, microUse, microStep, getReg_setReg, hp]

theorem reverse_microUse (w : Work) (op : MicroStep) : (microUse w op).reverse = microUse w op := by
  cases op <;> rfl

/-- The mirrored steps restore the working registers, and take the same lifting steps in reverse. -/
theorem runMicro_mirror (T : LiftTable) {ops : List MicroStep} (h : ∀ op ∈ ops, op.undoable = true) (w : Work) :
    runMicro T (mirror ops) (runMicro T ops w) = w ∧
      liftUses T (mirror ops) (runMicro T ops w) = (liftUses T ops w).reverse := by
  induction ops generalizing w with
  | nil => exact ⟨rfl, rfl⟩
  | cons op ops ih =>
    obtain ⟨hop, hops⟩ := List.forall_mem_cons.mp h
    obtain ⟨hrun, huses⟩ := ih hops (microStep T w op)
    have hmirror : mirror (op :: ops) = mirror ops ++ [op.undo] := by simp [mirror]
    rw [hmirror, runMicro_append, liftUses_append, show runMicro T (op :: ops) w = runMicro T ops (microStep T w op) from rfl,
      hrun, huses]
    refine ⟨microStep_undo T w hop, ?_⟩
    simp [liftUses, microUse_undo T w hop, reverse_microUse]

/-- IDCT's steps are FDCT's undone, last step first (42_inverse.md R182). -/
theorem inverseSteps_eq_mirror : inverseSteps = mirror forwardSteps := by decide

theorem forwardSteps_eq_mirror : forwardSteps = mirror inverseSteps := by decide

theorem forwardSteps_undoable : ∀ op ∈ forwardSteps, op.undoable = true := by decide

theorem inverseSteps_undoable : ∀ op ∈ inverseSteps, op.undoable = true := by decide

/-- IDCT on FDCT's output runs the mirrored steps on the registers that FDCT's steps left. -/
theorem idct_fdct (T : LiftTable) (x : Vec8) :
    idct T (fdct T x) = x ∧ idctUses T (fdct T x) = (fdctUses T x).reverse := by
  obtain ⟨hfdct, hfuses⟩ := fdct_of_sameT T (sameT_refl (forwardLoad x))
  obtain ⟨hidct, hiuses⟩ := idct_of_sameT T (sameT_inverseLoad_forwardStore (runMicro T forwardSteps (forwardLoad x)))
  obtain ⟨hrun, huses⟩ := runMicro_mirror T forwardSteps_undoable (forwardLoad x)
  rw [← inverseSteps_eq_mirror] at hrun huses
  rw [hfdct, hidct, hiuses, hfuses, hrun, huses]
  exact ⟨rfl, rfl⟩

theorem fdct_idct (T : LiftTable) (y : Vec8) : fdct T (idct T y) = y := by
  have hidct := (idct_of_sameT T (sameT_refl (inverseLoad y))).1
  have hfdct := (fdct_of_sameT T (sameT_forwardLoad_inverseStore (runMicro T inverseSteps (inverseLoad y)))).1
  have hrun := (runMicro_mirror T inverseSteps_undoable (inverseLoad y)).1
  rw [hidct, hfdct, forwardSteps_eq_mirror, hrun]
  rfl

/-- Settles O12: each kernel's steps are the other's, undone in reverse order. -/
theorem kernelsUndoEachOther : Obligations.KernelsUndoEachOther := fun T x => ⟨(idct_fdct T x).1, fdct_idct T x⟩

/-! ### The numbering of the lifting steps (41_forward.md R150, 42_inverse.md R184) -/

/-- The table entry of a lifting step. -/
def MicroStep.constant : MicroStep → Option (Fin 15)
  | .add _ _ _ | .sub _ _ _ | .half _ _ => none
  | .liftAdd _ _ k | .liftSub _ _ k => some k

/-- The table entries that a microprogram uses stand in its text, whatever the registers hold. -/
theorem liftUses_map_k (T : LiftTable) (ops : List MicroStep) (w : Work) :
    (liftUses T ops w).map LiftUse.k = ops.filterMap MicroStep.constant := by
  induction ops generalizing w with
  | nil => rfl
  | cons op ops ih =>
    rw [liftUses, List.map_append, ih]
    cases op <;> rfl

/-- Settles O14: the table entries are read off the two microprograms. -/
theorem liftingStepNumbering : Obligations.LiftingStepNumbering := fun T x =>
  ⟨(liftUses_map_k T forwardProgram (forwardLoad x)).trans (by decide),
    (liftUses_map_k T inverseProgram (inverseLoad x)).trans (by decide)⟩

theorem fdctUses_length (T : LiftTable) (x : Vec8) : (fdctUses T x).length = 15 := by
  simpa using congrArg List.length (liftingStepNumbering T x).1

/-- Settles O13: the mirrored steps read what FDCT's steps read; the overflow check depends on nothing else. -/
theorem inverseMirrorsLiftingSteps : Obligations.InverseMirrorsLiftingSteps := by
  intro T x
  have huses := (idct_fdct T x).2
  refine ⟨fdctUses_length T x, huses, fun j hj => ?_⟩
  rw [huses, List.getElem?_reverse (by rwa [fdctUses_length]), fdctUses_length]

/-! ### The IDCT8 command (42_inverse.md R185, R187) -/

/-- A kernel command of one line whose input words are written completes in what that line leaves. -/
theorem exec_of_one_line {i : Instr} {d : Dir} {l : Line} (hd : commandDir i = some d) (hl : commandLines i = [l])
    (hreads : readSet i = l.rd.addrs) {s : State} {x : Vec8} (hx : ∀ n : Fin 8, s.buf.read (l.rd.addr n) = some (vecGet x n)) :
    exec i s = .next (complete (s.buf.writeAll (vecWrites l.wr (kernel d x)))
      (overflowEvents liftTable d l.line l.pass 0 (kernelUses d x)) (leaveWork s)) := by
  have hload : s.buf.loadVec l.rd = some x := (loadVec_eq_some _ _ _).mpr hx
  refine exec_kernel_of_lines hd (hreads ▸ (loadVec_isSome _ _).mp ⟨x, hload⟩) ?_
  rw [hl]
  exact runLines_cons_eq_some.mpr ⟨_, _, _, runLine_eq_some.mpr ⟨x, hload, rfl, rfl⟩, rfl, (List.append_nil _).symm⟩

/-- IDCT8 whose input words are written runs its one line. -/
theorem exec_idct8 {s : State} {src dst stride : Addr} {y : Vec8}
    (hy : ∀ k : Fin 8, s.buf.read (src + BitVec.ofNat 8 k.val) = some (vecGet y k)) :
    exec (.idct8 src dst stride) s =
      .next (complete (s.buf.writeAll (vecWrites ⟨dst, stride⟩ (idct liftTable y)))
        (overflowEvents liftTable .inv 0 false 0 (idctUses liftTable y)) (leaveWork s)) :=
  exec_of_one_line (d := .inv) (l := ⟨false, 0, contiguous src, ⟨dst, stride⟩⟩) rfl rfl rfl fun k => by
    rw [contiguous_addr, hy k]

/-- Settles O46: the one line is read back, the last index at an address first, and its events are the completion's. -/
theorem idct8Completes : Obligations.Idct8Completes := by
  intro s src dst stride y hy
  obtain ⟨hc, hr⟩ := complete_leaveWork_fields (s.buf.writeAll (vecWrites ⟨dst, stride⟩ (idct liftTable y)))
    (overflowEvents liftTable .inv 0 false 0 (idctUses liftTable y)) s
  refine ⟨_, exec_idct8 hy, fun i hlast => ?_, fun a ha => ?_, hc, hr⟩
  · rw [complete_buf]
    exact read_store_of_last _ ⟨dst, stride⟩ _ i fun j hij => by
      simpa [Strided.addr] using hlast j hij
  · rw [complete_buf]
    refine read_store_of_notMem _ _ _ _ fun hmem => ?_
    obtain ⟨i, rfl⟩ := (mem_addrs _ _).mp hmem
    exact ha i rfl

/-- 256 divides no multiple d * s with d below 8 where 64 does not divide s. -/
theorem not_dvd_mul_stride {d s : Nat} (hd : 0 < d) (hd8 : d < 8) (hs : s % 64 ≠ 0) : ¬ 256 ∣ d * s := by
  interval_cases d <;> omega

/-- Eight multiples of a stride that is no multiple of 64 are distinct mod 256 (70_reset_and_hazards.md R287). -/
theorem mul_stride_inj {stride : Addr} (hs : stride.toNat % 64 ≠ 0) {i j : Fin 8}
    (h : BitVec.ofNat 8 i.val * stride = BitVec.ofNat 8 j.val * stride) : i = j := by
  wlog hij : i ≤ j generalizing i j
  · exact (this h.symm (le_of_not_ge hij)).symm
  by_contra hne
  have hmod : i.val * stride.toNat ≡ j.val * stride.toNat [MOD 256] := by
    simpa [BitVec.toNat_mul, Nat.ModEq] using congrArg BitVec.toNat h
  have hdvd := (Nat.modEq_iff_dvd' (Nat.mul_le_mul_right _ hij)).mp hmod
  rw [← Nat.sub_mul] at hdvd
  exact not_dvd_mul_stride (by omega) (by omega) hs hdvd

/-- Settles O56: IDCT8 writes IDCT of what FDCT8 left, at eight distinct addresses. -/
theorem roundTripOnTheMachine : Obligations.RoundTripOnTheMachine := by
  intro s t u src dst out stride stride' x hx hs ht hu i
  obtain ⟨t', ht', hcoeffs, -⟩ := fdct8Completes s src dst stride x hx
  obtain rfl := Host.Outcome.next.inj (ht'.symm.trans ht)
  obtain ⟨u', hu', hout, -⟩ := idct8Completes t' dst out stride' (fdct liftTable x) hcoeffs
  obtain rfl := Host.Outcome.next.inj (hu'.symm.trans hu)
  rw [hout i fun j hij hji => hij.ne (mul_stride_inj hs hji).symm, (idct_fdct liftTable x).1]

end Sys2Proof.Machine

namespace Sys2Proof.Machine

/-! ### The 2-D round trip (43_composition.md R218) -/

theorem vecOf_forwardLinesOf (T : LiftTable) (x : Block) (n : Fin 8) :
    vecOf (forwardLinesOf T x n) = fdct T (vecOf (x n)) := vecOf_vecGet _

/-- The inverse of a pass over the lines of a block (42_inverse.md R187). -/
theorem inverseLinesOf_forwardLinesOf (T : LiftTable) (x : Block) : inverseLinesOf T (forwardLinesOf T x) = x := by
  funext n i
  rw [inverseLinesOf, vecOf_forwardLinesOf, (idct_fdct T (vecOf (x n))).1, vecGet_vecOf]

/-- Settles O17: each pass of I2D undoes one of F2D's, and reading by columns twice is reading by lines. -/
theorem blockRoundTrip : Obligations.BlockRoundTrip := by
  intro T x
  calc i2d T (f2d T x)
      = inverseLinesOf T (columnsOf (columnsOf (forwardLinesOf T x))) := by
        rw [i2d, f2d, inverseLinesOf_forwardLinesOf]
    _ = x := inverseLinesOf_forwardLinesOf T x

/-! ### Overflow on a block (43_composition.md R221, R223) -/

/-- No lifting step of the list overflows. -/
def NoOverflow (us : List LiftUse) : Prop := ∀ u ∈ us, liftOverflows (liftTable u.k) u.value = false

theorem overflowEvents_eq_nil {us : List LiftUse} (h : NoOverflow us) (d : Dir) (line : BitVec 3) (pass : Bool) (n : Nat) :
    overflowEvents liftTable d line pass n us = [] := by
  induction us generalizing n with
  | nil => rfl
  | cons u us ih =>
    obtain ⟨hu, hus⟩ := List.forall_mem_cons.mp h
    rw [overflowEvents, hu]
    exact ih hus (n + 1)

theorem passEvents_eq_nil {d : Dir} {x : Block} (h : ∀ n, NoOverflow (kernelUses d (vecOf (x n)))) (pass : Bool) :
    passEvents d pass x = [] :=
  List.flatMap_eq_nil_iff.mpr fun n _ => overflowEvents_eq_nil (h n) d _ pass 0

/-- IDCT of FDCT's output takes FDCT's lifting steps in reverse (42_inverse.md R188). -/
theorem passEvents_inv_forwardLinesOf {x : Block} (h : ∀ n, NoOverflow (kernelUses .fwd (vecOf (x n)))) (pass : Bool) :
    passEvents .inv pass (forwardLinesOf liftTable x) = [] := by
  refine passEvents_eq_nil (fun n u hu => h n u ?_) pass
  rw [vecOf_forwardLinesOf, kernelUses, (idct_fdct liftTable (vecOf (x n))).2, List.mem_reverse] at hu
  exact hu

/-- The forms of the working registers after a microprogram. -/
def affineRun (T : LiftTable) : List MicroStep → AffineWork → AffineWork
  | [], F => F
  | op :: ops, F => affineRun T ops (affineStep T F op)

theorem Tracks.runMicro {T : LiftTable} {B : Int} {x : Vec8} (hx : ∀ i, within B (vecGet x i)) {ops : List MicroStep}
    {F : AffineWork} {w : Work} (h : Tracks F x w) (hsafe : affineSafe T B ops F = true) :
    Tracks (affineRun T ops F) x (runMicro T ops w) := by
  induction ops generalizing F w with
  | nil => exact h
  | cons op ops ih =>
    obtain ⟨hop, hops⟩ := Bool.and_eq_true_iff.mp hsafe
    exact ih (h.microStep hx hop) hops

theorem within_mono {A B : Int} (hAB : A ≤ B) {v : Word} (h : within A v) : within B v :=
  ⟨(neg_le_neg hAB).trans h.1, h.2.trans hAB⟩

/-- The register that FDCT stores as output `k` (41_forward.md R151). -/
def storedReg : Fin 8 → Reg
  | 0 => .t0
  | 1 => .t1
  | 2 => .t2
  | 3 => .t3
  | 4 => .t4
  | 5 => .t5
  | 6 => .t6
  | 7 => .t7

theorem vecGet_forwardStore (w : Work) (k : Fin 8) : vecGet (forwardStore w) k = getReg w (storedReg k) := by
  fin_cases k <;> rfl

/-- The affine bounds of what F1 to F34 leave, evaluated. -/
theorem affineRun_forward_bound :
    ∀ k, (affineRun liftTable forwardProgram forwardForms (storedReg k)).bound 13264 ≤ 37532 := by
  decide +kernel

/-- FDCT of inputs within 13264 is within 37532. -/
theorem within_fdct {x : Vec8} (hx : ∀ i, within 13264 (vecGet x i)) (k : Fin 8) :
    within 37532 (vecGet (fdct liftTable x) k) := by
  have htracks : Tracks (affineRun liftTable forwardProgram forwardForms) x (runMicro liftTable forwardProgram (forwardLoad x)) :=
    (tracks_forwardLoad x).runMicro (fun i => within_mono (by decide) (hx i)) affineSafe_forward
  have hbound := ((htracks (storedReg k)).abs_le_bound hx).trans (affineRun_forward_bound k)
  rw [fdct, vecGet_forwardStore]
  exact abs_le.mp (by exact_mod_cast hbound)

/-- Settles O16: both passes of FDCT8X8 run FDCT on lines within 37532, and IDCT8X8 mirrors them in reverse order. -/
theorem blockSafeRange : Obligations.BlockSafeRange := by
  intro x hx
  have hrows : ∀ n, NoOverflow (kernelUses .fwd (vecOf (x n))) := fun n =>
    forwardSafeRange _ fun i => by
      rw [vecGet_vecOf]
      exact within_mono (by decide) (hx n i)
  have hcols : ∀ n, NoOverflow (kernelUses .fwd (vecOf (columnsOf (forwardLinesOf liftTable x) n))) := fun n =>
    forwardSafeRange _ fun i => by
      rw [vecGet_vecOf]
      exact within_fdct (fun j => by rw [vecGet_vecOf]; exact hx i j) n
  constructor
  · rw [f2dEvents, passEvents_eq_nil hrows, passEvents_eq_nil hcols, List.append_nil]
  · have hfirst : inverseLinesOf liftTable (f2d liftTable x) = columnsOf (forwardLinesOf liftTable x) :=
      inverseLinesOf_forwardLinesOf _ _
    rw [i2dEvents, hfirst]
    exact List.append_eq_nil_iff.mpr
      ⟨passEvents_inv_forwardLinesOf hcols false, passEvents_inv_forwardLinesOf hrows true⟩

end Sys2Proof.Machine

namespace Sys2Proof.Machine

/-! ### The two passes of a 2-D command (43_composition.md R211 to R217) -/

/-- The eight lines of a pass, line n from `rd n` to `wr n`. -/
def passLines (pass : Bool) (rd wr : Fin 8 → Strided) : List Line :=
  (List.finRange 8).map fun n => ⟨pass, BitVec.ofNat 3 n.val, rd n, wr n⟩

/-- The rows of a block. -/
def rows (base : Addr) (n : Fin 8) : Strided := row base (BitVec.ofNat 3 n.val)

/-- The columns of a block. -/
def columns (base : Addr) (n : Fin 8) : Strided := column base (BitVec.ofNat 3 n.val)

@[simp] theorem rows_addr (base : Addr) (n i : Fin 8) : (rows base n).addr i = blockAddr base n i := row_addr base n i

@[simp] theorem columns_addr (base : Addr) (n i : Fin 8) : (columns base n).addr i = blockAddr base i n :=
  column_addr base n i

theorem commandLines_fdct8x8 (src dst tmp : Addr) : commandLines (.fdct8x8 src dst tmp) =
    passLines false (rows src) (rows tmp) ++ passLines true (columns tmp) (rows dst) := by
  rw [commandLines, fdct8x8Lines, lineNumbers_eq, List.map_map, List.map_map]
  rfl

theorem commandLines_idct8x8 (src dst tmp : Addr) : commandLines (.idct8x8 src dst tmp) =
    passLines false (rows src) (columns tmp) ++ passLines true (rows tmp) (rows dst) := by
  rw [commandLines, idct8x8Lines, lineNumbers_eq, List.map_map, List.map_map]
  rfl

theorem mem_rows_addrs_iff (base a : Addr) : (∃ n, a ∈ (rows base n).addrs) ↔ a ∈ region base := by
  simp only [mem_addrs, rows_addr, mem_region_iff_blockAddr]

theorem mem_columns_addrs_iff (base a : Addr) : (∃ n, a ∈ (columns base n).addrs) ↔ a ∈ region base := by
  simp only [mem_addrs, columns_addr, mem_region_iff_blockAddr]
  exact exists_comm

/-! ### Lines one after another, for every overlap (43_composition.md R219) -/

/-- A line that writes eight distinct words, as the words of BUF before and after it. -/
theorem lineRun_of_runLine {d : Dir} {l : Line} {m m' : Memory} {ev : List OverflowEvent}
    (hself : Function.Injective l.wr.addr) (h : runLine d l m = some (m', ev)) :
    ∃ x : Fin 8 → Word, LineRun (kernel d) l.rd.addr l.wr.addr x m.read m'.read ∧
      ev = overflowEvents liftTable d l.line l.pass 0 (kernelUses d (vecOf x)) := by
  obtain ⟨x, hx, rfl, rfl⟩ := runLine_eq_some.mp h
  refine ⟨vecGet x, ⟨(loadVec_eq_some _ _ _).mp hx, read_store m _ _ hself, fun a ha => ?_⟩, rfl⟩
  exact read_store_of_notMem m _ _ a fun hmem => ((mem_addrs _ _).mp hmem).elim ha

/-- Lines that each write eight distinct words, as a chain of the words of BUF between them. -/
theorem lineRuns_of_runLines {d : Dir} {k : Nat} {mk : Fin k → Line} {m m' : Memory} {ev : List OverflowEvent}
    (hself : ∀ n, Function.Injective (mk n).wr.addr) (h : runLines d ((List.finRange k).map mk) m = some (m', ev)) :
    ∃ (p : Nat → Addr → Option Word) (x : Fin k → Fin 8 → Word), p 0 = m.read ∧ p k = m'.read ∧
      (∀ n, LineRun (kernel d) (mk n).rd.addr (mk n).wr.addr (x n) (p n.val) (p (n.val + 1))) ∧
      ev = (List.finRange k).flatMap fun n =>
        overflowEvents liftTable d (mk n).line (mk n).pass 0 (kernelUses d (vecOf (x n))) := by
  induction k generalizing m ev with
  | zero =>
    obtain ⟨rfl, rfl⟩ : m = m' ∧ [] = ev := by simpa using h
    exact ⟨fun _ => m.read, nofun, rfl, rfl, nofun, rfl⟩
  | succ k ih =>
    rw [List.finRange_succ, List.map_cons, List.map_map] at h
    obtain ⟨m1, ev1, ev2, hline, hlines, rfl⟩ := runLines_cons_eq_some.mp h
    obtain ⟨x0, hrun, rfl⟩ := lineRun_of_runLine (hself 0) hline
    obtain ⟨p, x, hp0, hpk, hruns, rfl⟩ := ih (fun n => hself n.succ) hlines
    rw [← hp0] at hrun
    refine ⟨Stream'.cons m.read p, Fin.cons x0 x, rfl, hpk, Fin.cases hrun hruns, ?_⟩
    rw [List.finRange_succ, List.flatMap_cons, List.flatMap_map]
    rfl

/-- A pass whose lines each write eight distinct words. -/
theorem passRun_of_runLines {d : Dir} {pass : Bool} {rd wr : Fin 8 → Strided} {m m' : Memory} {ev : List OverflowEvent}
    (hself : ∀ n, Function.Injective (wr n).addr) (h : runLines d (passLines pass rd wr) m = some (m', ev)) :
    ∃ (p : Nat → Addr → Option Word) (x : Block), p 0 = m.read ∧ p 8 = m'.read ∧
      PassRun (kernel d) (fun n i => (rd n).addr i) (fun n i => (wr n).addr i) x p ∧ ev = passEvents d pass x :=
  lineRuns_of_runLines hself h

/-- A command of two passes, its read set written, runs its sixteen lines one after another. -/
theorem exec_two_passes_run {i : Instr} {d : Dir} {rd wr rd' wr' : Fin 8 → Strided} (hd : commandDir i = some d)
    (hl : commandLines i = passLines false rd wr ++ passLines true rd' wr')
    (hself : ∀ n, Function.Injective (wr n).addr) (hself' : ∀ n, Function.Injective (wr' n).addr) {s : State}
    (hr : ∀ a ∈ readSet i, s.buf.isWritten a = true) :
    ∃ (t : State) (p q : Nat → Addr → Option Word) (x y : Block), exec i s = .next t ∧
      p 0 = s.buf.read ∧ q 0 = p 8 ∧ t.buf.read = q 8 ∧
      PassRun (kernel d) (fun n i => (rd n).addr i) (fun n i => (wr n).addr i) x p ∧
      PassRun (kernel d) (fun n i => (rd' n).addr i) (fun n i => (wr' n).addr i) y q ∧
      Completed s t ∧ OverflowReport (passEvents d false x ++ passEvents d true y) s t := by
  obtain ⟨m, evs, hm⟩ := commandLines_run hd hr
  obtain ⟨hc, ho⟩ := complete_leaveWork_fields m evs s
  obtain ⟨m1, ev1, ev2, h1, h2, rfl⟩ := runLines_append.mp (hl ▸ hm)
  obtain ⟨p, x, hp0, hp8, hpass, rfl⟩ := passRun_of_runLines hself h1
  obtain ⟨q, y, hq0, hq8, hpass', rfl⟩ := passRun_of_runLines hself' h2
  refine ⟨_, p, q, x, y, exec_kernel_of_lines hd hr hm, hp0, hq0.trans hp8.symm, ?_, hpass, hpass', hc, ho⟩
  rw [complete_buf, hq8]

theorem rows_addr_injective (base : Addr) (n : Fin 8) : Function.Injective (rows base n).addr :=
  fun _ _ h => (row_addr_inj base h).2

theorem columns_addr_injective (base : Addr) (n : Fin 8) : Function.Injective (columns base n).addr :=
  fun _ _ h => (column_addr_inj base h).2

/-- Settles O58: rows of src to rows of tmp, then columns of tmp to rows of dst. -/
theorem fdct8x8RunsLineByLine : Obligations.Fdct8x8RunsLineByLine := by
  intro s src dst tmp hr
  simpa only [kernel, rows_addr, columns_addr] using exec_two_passes_run rfl (commandLines_fdct8x8 src dst tmp)
    (rows_addr_injective tmp) (rows_addr_injective dst) hr

/-- Settles O59: rows of src to columns of tmp, then rows of tmp to rows of dst. -/
theorem idct8x8RunsLineByLine : Obligations.Idct8x8RunsLineByLine := by
  intro s src dst tmp hr
  simpa only [kernel, rows_addr, columns_addr] using exec_two_passes_run rfl (commandLines_idct8x8 src dst tmp)
    (columns_addr_injective tmp) (rows_addr_injective dst) hr

/-! ### Passes whose lines do not disturb one another (43_composition.md R218) -/

/-- The lines of a pass write distinct words, and none that another of its lines reads. -/
def LinesSeparate (rd wr : Fin 8 → Strided) : Prop :=
  (∀ n n' i j, (wr n).addr i = (wr n').addr j → n = n' ∧ i = j) ∧
  ∀ n n' i j, n ≠ n' → (wr n).addr i ≠ (rd n').addr j

/-- The kernel of a direction on every line of a block. -/
def kernelLinesOf (d : Dir) (x : Block) : Block := fun n i => vecGet (kernel d (vecOf (x n))) i

theorem kernelLinesOf_fwd : kernelLinesOf .fwd = forwardLinesOf liftTable := rfl

theorem kernelLinesOf_inv : kernelLinesOf .inv = inverseLinesOf liftTable := rfl

/-- What a pass of separate lines leaves, and its events. -/
theorem runLines_passLines {d : Dir} {rd wr : Fin 8 → Strided} (hsep : LinesSeparate rd wr) (pass : Bool) {m : Memory}
    {x : Block} (hx : ∀ n i, m.read ((rd n).addr i) = some (x n i)) :
    ∃ m', runLines d (passLines pass rd wr) m = some (m', passEvents d pass x) ∧
      (∀ n i, m'.read ((wr n).addr i) = some (kernelLinesOf d x n i)) ∧
      ∀ a, (¬ ∃ n, a ∈ (wr n).addrs) → m'.read a = m.read a := by
  obtain ⟨hwrite, hread⟩ := hsep
  obtain ⟨m', hm, hout, hframe⟩ := runLines_pass d (fun n => ⟨pass, BitVec.ofNat 3 n.val, rd n, wr n⟩) (fun n => vecOf (x n))
    (fun n i j h => (hwrite n n i j h).2) (fun n n' i j hne h => hne (hwrite n n' i j h).1) hread (List.finRange 8) m
    (List.nodup_finRange 8) fun n _ => (loadVec_eq_some _ _ _).mpr fun i => by rw [vecGet_vecOf]; exact hx n i
  exact ⟨m', hm, fun n => hout n (List.mem_finRange n), fun a ha => hframe a fun n _ hn => ha ⟨n, hn⟩⟩

/-- A command of two passes of separate lines, the second of which reads the lines of the first transposed. -/
theorem exec_two_passes_of_separate {i : Instr} {d : Dir} {rd wr rd' wr' : Fin 8 → Strided} (hd : commandDir i = some d)
    (hl : commandLines i = passLines false rd wr ++ passLines true rd' wr') (hsep : LinesSeparate rd wr)
    (hsep' : LinesSeparate rd' wr') (hmid : ∀ n k, (rd' n).addr k = (wr k).addr n) {s : State} {x : Block}
    (hr : ∀ a ∈ readSet i, s.buf.isWritten a = true) (hx : ∀ n k, s.buf.read ((rd n).addr k) = some (x n k)) :
    ∃ t, exec i s = .next t ∧
      (∀ n k, t.buf.read ((wr' n).addr k) = some (kernelLinesOf d (columnsOf (kernelLinesOf d x)) n k)) ∧
      (∀ n k, (¬ ∃ n', (wr n).addr k ∈ (wr' n').addrs) → t.buf.read ((wr n).addr k) = some (kernelLinesOf d x n k)) ∧
      (∀ a, (¬ ∃ n, a ∈ (wr' n).addrs) → (¬ ∃ n, a ∈ (wr n).addrs) → t.buf.read a = s.buf.read a) ∧
      Completed s t ∧
      OverflowReport (passEvents d false x ++ passEvents d true (columnsOf (kernelLinesOf d x))) s t := by
  obtain ⟨m1, h1, hout1, hframe1⟩ := runLines_passLines (d := d) hsep false hx
  have hx' : ∀ n k, m1.read ((rd' n).addr k) = some (columnsOf (kernelLinesOf d x) n k) := fun n k => by
    rw [hmid]
    exact hout1 k n
  obtain ⟨m2, h2, hout2, hframe2⟩ := runLines_passLines (d := d) hsep' true hx'
  have hm := runLines_append.mpr ⟨m1, _, _, h1, h2, rfl⟩
  obtain ⟨hc, ho⟩ := complete_leaveWork_fields m2 _ s
  refine ⟨_, exec_kernel_of_lines hd hr (hl ▸ hm), ?_, ?_, ?_, hc, ho⟩ <;> simp only [complete_buf]
  · exact hout2
  · exact fun n k hk => (hframe2 _ hk).trans (hout1 n k)
  · exact fun a ha' ha => (hframe2 a ha').trans (hframe1 a ha)

/-- Rows to the rows of a region apart from theirs, or of the same one. -/
theorem linesSeparate_rows {src dst : Addr} (h : disjointRegions src dst ∨ src = dst) :
    LinesSeparate (rows src) (rows dst) := by
  refine ⟨fun n n' i j => row_addr_inj dst, fun n n' i j hne he => ?_⟩
  rw [rows_addr, rows_addr] at he
  rcases h with h | rfl
  · exact h _ (blockAddr_mem_region src n' j) (he ▸ blockAddr_mem_region dst n i)
  · exact hne (blockAddr_inj he).1

theorem linesSeparate_columns_rows {src dst : Addr} (h : disjointRegions src dst) :
    LinesSeparate (columns src) (rows dst) := by
  refine ⟨fun n n' i j => row_addr_inj dst, fun n n' i j _ he => ?_⟩
  rw [rows_addr, columns_addr] at he
  exact h _ (blockAddr_mem_region src j n') (he ▸ blockAddr_mem_region dst n i)

theorem linesSeparate_rows_columns {src dst : Addr} (h : disjointRegions src dst) :
    LinesSeparate (rows src) (columns dst) := by
  refine ⟨fun n n' i j => column_addr_inj dst, fun n n' i j _ he => ?_⟩
  rw [rows_addr, columns_addr] at he
  exact h _ (blockAddr_mem_region src n' j) (he ▸ blockAddr_mem_region dst i n)

/-- A region is written where a block stands in it. -/
theorem isWritten_region {m : Memory} {base : Addr} {x : Block} (hx : ∀ n i, m.read (blockAddr base n i) = some (x n i)) :
    ∀ a ∈ region base, m.isWritten a = true := by
  intro a ha
  obtain ⟨n, i, rfl⟩ := (mem_region_iff_blockAddr base a).mp ha
  exact (isWritten_iff m _).mpr ⟨_, hx n i⟩

/-- Settles O47: under the region conditions the lines of each pass are separate, and dst leaves tmp alone. -/
theorem fdct8x8LeavesTransform : Obligations.Fdct8x8LeavesTransform := by
  intro s src dst tmp x hx htd hst
  obtain ⟨t, ht, hdst, htmp, hframe, hc, ho⟩ := exec_two_passes_of_separate (i := .fdct8x8 src dst tmp) rfl
    (commandLines_fdct8x8 src dst tmp) (linesSeparate_rows hst) (linesSeparate_columns_rows htd)
    (fun n k => by rw [columns_addr, rows_addr]) (isWritten_region hx) (x := x) (by simpa only [rows_addr] using hx)
  simp only [rows_addr, mem_rows_addrs_iff, kernelLinesOf_fwd] at hdst htmp hframe ho
  exact ⟨t, ht, hdst, fun r k => htmp r k (htd _ (blockAddr_mem_region tmp r k)), hframe, hc, ho⟩

/-- Settles O48: under the region conditions the lines of each pass are separate. -/
theorem idct8x8LeavesTransform : Obligations.Idct8x8LeavesTransform := by
  intro s src dst tmp y hy hst htd
  obtain ⟨t, ht, hdst, -, hframe, hc, ho⟩ := exec_two_passes_of_separate (i := .idct8x8 src dst tmp) rfl
    (commandLines_idct8x8 src dst tmp) (linesSeparate_rows_columns hst) (linesSeparate_rows (htd.imp_right Eq.symm))
    (fun n k => by rw [columns_addr, rows_addr]) (isWritten_region hy) (x := y) (by simpa only [rows_addr] using hy)
  simp only [rows_addr, mem_rows_addrs_iff, mem_columns_addrs_iff, kernelLinesOf_inv] at hdst hframe ho
  exact ⟨t, ht, hdst, hframe, hc, ho⟩

/-- Settles O57: FDCT8X8 leaves F2D of the block, IDCT8X8 leaves I2D of that. -/
theorem blockRoundTripOnTheMachine : Obligations.BlockRoundTripOnTheMachine := by
  intro s t u src dst tmp out tmp' x hx htd hst hdt hto ht hu r c
  obtain ⟨t', ht', hcoeffs, -⟩ := fdct8x8LeavesTransform s src dst tmp x hx htd hst
  obtain rfl := Host.Outcome.next.inj (ht'.symm.trans ht)
  obtain ⟨u', hu', hout, -⟩ := idct8x8LeavesTransform t' dst out tmp' (f2d liftTable x) hcoeffs hdt hto
  obtain rfl := Host.Outcome.next.inj (hu'.symm.trans hu)
  rw [hout, blockRoundTrip]

end Sys2Proof.Machine

namespace Sys2Proof.Machine

/-! ### NOP (44_control.md R240) -/

/-- Without an event there is nothing to capture, whatever the snapshot. -/
@[simp] theorem overflowCapture_nil (s : State) : overflowCapture [] s = s := by
  rcases overflowCapture_eq [] s with h | ⟨e, rest, hne, -⟩
  · exact h
  · cases hne

/-- A completion without events writes BUF, sets DONE and clears BUSY (60_exceptions.md R256). -/
theorem complete_nil (m : Memory) (s : State) :
    complete m [] s = { s with buf := m, status := { s.status with done := true }, phase := .idle } := by
  rw [complete, overflowCapture_nil, raise]

/-- Settles O43: NOP is the completion that leaves BUF as it was and has no event. -/
theorem nopCompletes : Obligations.NopCompletes := by
  intro s
  rw [exec_nop, complete_nil]

end Sys2Proof.Machine

namespace Sys2Proof.Machine

/-! ### A CMD write (60_exceptions.md R252, R253, R255) -/

theorem applyInput_write_cmd (w : Word) (s : State) : applyInput (.write 0x000 w) s = .next (issueCommand w s) :=
  applyInput_write_register (by decide) w s

/-- Settles O33: while idle the write is acceptance, of a legal word. -/
theorem legalCommandIsAccepted : Obligations.LegalCommandIsAccepted := by
  intro s w hp hw
  refine ⟨acceptCommand w s, by rw [applyInput_write_cmd, issueCommand_of_idle hp], ?_⟩
  rw [acceptCommand_of_legal hw]
  exact ⟨rfl, rfl, rfl, rfl, rfl, rfl, rfl, rfl, rfl, rfl, rfl, rfl⟩

/-- Settles O34: while idle the write is acceptance, of an illegal word. -/
theorem illegalWordSetsIll : Obligations.IllegalWordSetsIll := by
  intro s w hp hw
  rw [applyInput_write_cmd, issueCommand_of_idle hp, acceptCommand_of_illegal hw]

/-- Settles O35: while busy the write raises BUSYERR. -/
theorem busyWriteSetsBusyErr : Obligations.BusyWriteSetsBusyErr := by
  intro s w hp
  rw [applyInput_write_cmd, issueCommand_of_busy hp, raise]

/-! ### The step that runs a command (60_exceptions.md R256) -/

/-- A busy block whose moves are used up, or that has no input, leaves the step to the sequencer. -/
theorem step_eq_exec_of_no_host_move {s : State} {i : Instr} (hp : s.phase = .busy) (hd : decode s.cur = .ok i)
    (h : s.latLeft = 0 ∨ s.inputs = []) : step s = exec i s := by
  refine step_eq_exec hp hd (h.imp (fun hlat => ?_) fun hin => ?_)
  · simp [hostMayMove, hp, hlat]
  · simp [nextInput, hin]

/-- Placing a legal word accepts it and leaves the host no move. -/
theorem withFetchWord_of_legal {w : Word} (hw : isLegal w = true) (s : State) :
    s.withFetchWord 32 w.toNat = { acceptCommand w s with latLeft := 0 } := by
  have hword : BitVec.ofNat 32 (w.toNat % 2 ^ 32) = w := by
    rw [Nat.mod_eq_of_lt w.isLt, BitVec.ofNat_toNat, BitVec.setWidth_eq]
  rw [State.withFetchWord, hword, placeCommand, if_pos hw]

/-- Settles O40: acceptance leaves the block busy with the word, and the word of a well-formed command decodes to it. -/
theorem stepRunsTheCurrentCommand : Obligations.StepRunsTheCurrentCommand := by
  refine ⟨fun s i => step_eq_exec_of_no_host_move, fun s i hwf => ?_⟩
  have hd : decode (encode i) = .ok i := decodeOfEncodeIsIdentity i hwf
  have hw : isLegal (encode i) = true := (isLegal_iff _).mpr ⟨i, hd⟩
  rw [withFetchWord_of_legal hw, acceptCommand_of_legal hw]
  exact step_eq_exec_of_no_host_move rfl hd (.inl rfl)

/-! ### Completion of a command with a written read set (20_memory.md R66, R76) -/

/-- A well-formed command whose read set is written answers a next state. -/
theorem exec_next_of_readSet_written {i : Instr} {s : State} (hwf : i.WellFormed)
    (hr : ∀ a ∈ readSet i, s.buf.isWritten a = true) : ∃ t, exec i s = .next t := by
  cases hd : commandDir i with
  | some d =>
    obtain ⟨m, evs, hm⟩ := commandLines_run hd hr
    exact ⟨_, exec_kernel_of_lines hd hr hm⟩
  | none =>
    cases i with
    | nop => exact ⟨_, exec_nop s⟩
    | rsh src dst b =>
      obtain ⟨a, ha⟩ := (isWritten_iff _ _).mp (hr src List.mem_cons_self)
      exact ⟨_, exec_rsh_eq_next.mpr ⟨wellFormed_rsh_iff.mp hwf, a, ha, rfl⟩⟩
    | fdct8 | idct8 | fdct8x8 | idct8x8 => simp [commandDir] at hd

/-- A command leaves every word of its write set written. -/
theorem exec_isWritten_of_mem_writeSet {i : Instr} {s t : State} (h : exec i s = .next t) {a : Addr}
    (ha : a ∈ writeSet i) : t.buf.isWritten a = true := by
  rcases exec_next_cases h with ⟨rfl, -⟩ | ⟨src, dst, b, v, rfl, -, -, rfl⟩ | ⟨d, m, evs, hd, hm, -, rfl⟩
  · simp [writeSet] at ha
  · obtain rfl : a = dst := by simpa [writeSet] using ha
    rw [complete_buf]
    exact (isWritten_iff _ _).mpr ⟨_, read_write_same _ _ _⟩
  · obtain ⟨-, -, hwritten⟩ := runLines_frame hm
    rw [complete_buf]
    exact (hwritten a).mpr (.inr ((mem_writeSet_iff_lines hd a).mp ha))

/-- Settles O49: the command answers, and what answers has completed and written its write set. -/
theorem commandCompletesWhenReadSetIsWritten : Obligations.CommandCompletesWhenReadSetIsWritten := by
  intro i s hwf hr
  obtain ⟨t, ht⟩ := exec_next_of_readSet_written hwf hr
  obtain ⟨hc, -⟩ := exec_next_completes ht
  exact ⟨t, ht, hc, fun a => exec_isWritten_of_mem_writeSet ht⟩

/-! ### The steps that change BUF (60_exceptions.md R269, 20_memory.md R72) -/

@[simp] theorem acceptCommand_buf (w : Word) (s : State) : (acceptCommand w s).buf = s.buf := by
  cases hw : isLegal w with
  | true => rw [acceptCommand_of_legal hw]
  | false => rw [acceptCommand_of_illegal hw]

@[simp] theorem issueCommand_buf (w : Word) (s : State) : (issueCommand w s).buf = s.buf := by
  cases hp : s.phase with
  | idle => rw [issueCommand_of_idle hp, acceptCommand_buf]
  | busy => rw [issueCommand_of_busy hp, raise_busyErr_buf]

/-- A reset of an idle block keeps BUF (70_reset_and_hazards.md R282). -/
theorem applyReset_buf_of_idle {s : State} (hp : s.phase = .idle) : (applyReset s).buf = s.buf := by
  simp [abortedWords, hp]

theorem inputs_of_nextInput_of_idle {s : State} {x : Input} {rest : List Input} (hp : s.phase = .idle)
    (h : nextInput s = some (x, rest)) : s.inputs = x :: rest := by
  cases hin : s.inputs with
  | nil => simp [nextInput, hin] at h
  | cons y ys => simpa [nextInput_of_not_held hin (.inl hp)] using h

/-- The inputs that change BUF are a write of a BUF word, and the reset of a running command. -/
theorem applyInput_changes_buf {x : Input} {s t : State} (h : applyInput x s = .next t) (hne : t.buf ≠ s.buf) :
    (∃ off v, x = .write off v ∧ isBufOffset off = true) ∨ (x = .reset ∧ s.phase = .busy ∧ t.phase = .idle) := by
  rcases applyInput_next_cases h with ⟨_, _, -, rfl⟩ | ⟨off, v, hx, hoff, -⟩ | ⟨w, -, rfl⟩ | ⟨v, -, rfl⟩ |
    ⟨_, -, rfl⟩ | ⟨_, _, -, -, rfl⟩ | ⟨hx, rfl⟩
  · exact absurd rfl hne
  · exact .inl ⟨off, v, hx, hoff⟩
  · exact absurd (issueCommand_buf w s) hne
  · exact absurd (clearEvents_buf _ v) hne
  · exact absurd rfl hne
  · exact absurd rfl hne
  · cases hp : s.phase with
    | idle => exact absurd (applyReset_buf_of_idle hp) hne
    | busy => exact .inr ⟨hx, rfl, applyReset_phase _⟩

/-- Settles O39: a write of a BUF word is held while busy, so it takes effect in an idle block only. -/
theorem onlyThreeStepsChangeBuf : Obligations.OnlyThreeStepsChangeBuf := by
  intro s t h hne
  rcases step_next_cases h with ⟨-, -, rfl⟩ | ⟨x, rest, -, hn, hx⟩ | ⟨hp, i, hd, hx⟩
  · exact absurd rfl hne
  · rcases applyInput_changes_buf hx (by simpa using hne) with ⟨off, v, rfl, hoff⟩ | ⟨rfl, hp, hidle⟩
    · cases hp : s.phase with
      | idle => exact .inl ⟨rfl, off, v, rest, inputs_of_nextInput_of_idle hp hn, hoff⟩
      | busy => exact absurd (hoff.symm.trans (isHeld_of_nextInput hp hn)) nofun
    · exact .inr ⟨by simpa using hp, hidle, .inr ⟨rest, hn⟩⟩
  · obtain ⟨⟨hidle, -⟩, -⟩ := exec_next_completes hx
    exact .inr ⟨hp, hidle, .inl ⟨i, hd, hx⟩⟩

end Sys2Proof.Machine

namespace Sys2Proof.Machine

/-! ### Reset (70_reset_and_hazards.md R280, R281, R282) -/

/-- A reset makes the write set of the running command unwritten, and keeps every other word. -/
theorem applyReset_read_of_busy {s : State} {i : Instr} (hp : s.phase = .busy) (hd : decode s.cur = .ok i) (a : Addr) :
    (a ∈ writeSet i → (applyReset s).buf.read a = none) ∧
      (a ∉ writeSet i → (applyReset s).buf.read a = s.buf.read a) := by
  have hwords : abortedWords s = writeSet i := by simp [abortedWords, hp, hd]
  rw [applyReset_buf, hwords, read_eraseAll]
  exact ⟨fun h => if_pos h, fun h => if_neg h⟩

@[simp] theorem statusWord_applyReset (s : State) : statusWord (applyReset s) = 0 := by
  simp [statusWord]

@[simp] theorem ctrlWord_applyReset (s : State) : ctrlWord (applyReset s).ctrl = 0 := by
  simp [ctrlWord]

@[simp] theorem ovfInfoWord_clear : ovfInfoWord ovfInfoClear = 0 := by decide

/-- From offset 0x005 on, no register reads the state (10_state.md R34, R35, R36). -/
theorem readRegister_constant {off : Offset} (h : 0x005 ≤ off.toNat) (s t : State) :
    readRegister off s = readRegister off t := by
  rcases (by omega : off.toNat = 0x005 ∨ off.toNat = 0x006 ∨ 0x007 ≤ off.toNat) with h5 | h6 | h7
  · obtain rfl : off = 0x005 := BitVec.eq_of_toNat_eq h5
    simp [readRegister]
  · obtain rfl : off = 0x006 := BitVec.eq_of_toNat_eq h6
    simp [readRegister]
  · rw [readRegister_of_ge h7, readRegister_of_ge h7]

/-- While a BUF access is held, a reset right behind it is the next input (20_memory.md R70; log 14). -/
theorem nextInput_of_held_of_reset {s : State} {x : Input} {rest : List Input} (hp : s.phase = .busy)
    (hin : s.inputs = x :: .reset :: rest) (hx : isHeld x = true) : nextInput s = some (.reset, rest) := by
  simp [nextInput, hin, hp, hx]

/-- Settles O20: the registers by evaluation, BUF by the phase, the constants because they do not read the state. -/
theorem resetEffect : Obligations.ResetEffect := by
  intro s
  refine ⟨applyReset s, rfl, rfl, statusWord_applyReset s, ctrlWord_applyReset s, ovfInfoWord_clear, rfl, rfl, rfl,
    fun hp a => ?_, fun hp i => applyReset_read_of_busy hp, fun off h _ => readRegister_constant h _ s⟩
  rw [applyReset_buf_of_idle hp]

/-- Settles O21: the step takes the reset, past the held access, and applies it to the running command. -/
theorem resetAbandonsHeldAccess : Obligations.ResetAbandonsHeldAccess := by
  intro s x rest i hp hlat hin hx hd
  have hstep : step s = .next (applyReset (takeInput s rest)) :=
    step_eq_applyInput (by simpa [hostMayMove, hp] using hlat) (nextInput_of_held_of_reset hp hin hx)
  refine ⟨_, hstep, by simp, by simp, by simp, by simp, fun a => ?_⟩
  simpa using applyReset_read_of_busy (s := takeInput s rest) (by simpa using hp) (by simpa using hd) a

/-! ### From acceptance to completion (70_reset_and_hazards.md R293, 20_memory.md R70) -/

/-- The command running in `s` is still running in `u`, on the BUF and with the snapshot that it has in `s`. -/
def StillRunning (s u : State) : Prop := u.phase = .busy ∧ u.cur = s.cur ∧ u.chk = s.chk ∧ u.buf = s.buf

theorem StillRunning.refl {s : State} (hp : s.phase = .busy) : StillRunning s s := ⟨hp, rfl, rfl, rfl⟩

theorem StillRunning.trans {s t u : State} (h : StillRunning s t) (h' : StillRunning t u) : StillRunning s u := by
  obtain ⟨-, hcur, hchk, hbuf⟩ := h
  obtain ⟨hp', hcur', hchk', hbuf'⟩ := h'
  exact ⟨hp', hcur'.trans hcur, hchk'.trans hchk, hbuf'.trans hbuf⟩

/-- A transaction that a busy block does not hold is answered, and leaves the command running. -/
theorem applyInput_transaction_of_busy {x : Input} {s : State} (hp : s.phase = .busy) (hx : isTransaction x = true)
    (hfree : isHeld x = false) :
    ∃ t, applyInput x s = .next t ∧ StillRunning s t ∧ t.inputs = s.inputs ∧ t.latLeft = s.latLeft := by
  cases x with
  | read off =>
    exact ⟨_, if_neg (ne_true_of_eq_false hfree), .refl hp, rfl, rfl⟩
  | write off v =>
    refine ⟨_, if_neg (ne_true_of_eq_false hfree), ?_⟩
    rcases writeRegister_cases off v s with ⟨-, h⟩ | ⟨-, h⟩ | ⟨-, h⟩ | ⟨-, -, -, h⟩ <;> rw [h]
    · rw [issueCommand_of_busy hp]
      exact ⟨.refl hp, rfl, rfl⟩
    · exact ⟨.refl hp, rfl, rfl⟩
    · exact ⟨.refl hp, rfl, rfl⟩
    · exact ⟨.refl hp, rfl, rfl⟩
  | subWord | reset => simp [isTransaction] at hx

/-- A running command with only transactions pending completes in this step, or runs on after one host move. -/
theorem step_completes_or_uses_move {s : State} {i : Instr} (hp : s.phase = .busy) (hd : decode s.cur = .ok i)
    (hin : ∀ x ∈ s.inputs, isTransaction x = true) :
    step s = exec i s ∨
      ∃ t, step s = .next t ∧ StillRunning s t ∧ (∀ x ∈ t.inputs, isTransaction x = true) ∧
        t.latLeft + 1 = s.latLeft := by
  rcases Nat.eq_zero_or_pos s.latLeft with hlat | hlat
  · exact .inl (step_eq_exec_of_no_host_move hp hd (.inl hlat))
  cases hs : s.inputs with
  | nil => exact .inl (step_eq_exec_of_no_host_move hp hd (.inr hs))
  | cons x rest =>
    rw [hs] at hin
    obtain ⟨hx, hrest⟩ := List.forall_mem_cons.mp hin
    cases hheld : isHeld x with
    | true =>
      have hreset : rest.head? ≠ some .reset := fun h => by
        simpa [isTransaction] using hrest _ (List.mem_of_head? h)
      exact .inl (step_eq_exec hp hd (.inr (nextInput_of_held hp hs hheld hreset)))
    | false =>
      obtain ⟨t, ht, hrun, hinputs, hmoves⟩ :=
        applyInput_transaction_of_busy (s := takeInput s rest) (by simpa using hp) hx hheld
      refine .inr ⟨t, ?_, by simpa [StillRunning] using hrun, by simpa [hinputs] using hrest, ?_⟩
      · rw [step_eq_applyInput (by simpa [hostMayMove, hp] using hlat) (nextInput_of_not_held hs (.inr hheld)), ht]
      · rw [hmoves, takeInput_of_busy hp]
        exact Nat.sub_add_cancel hlat

theorem run_succ_of_step {s t : State} (h : step s = .next t) (k : Nat) :
    Host.Core.run Sys2Proof.core (k + 1) s = Host.Core.run Sys2Proof.core k t := by
  simp only [Host.Core.run, show Sys2Proof.core.step s = .next t from h]

/-- Settles O41, by induction on the host moves left: each step but the completion uses up one. -/
theorem acceptedCommandReachesCompletion : Obligations.AcceptedCommandReachesCompletion := by
  intro s i hp hd hin
  suffices h : ∃ k u, k ≤ s.latLeft ∧ Host.Core.run Sys2Proof.core k s = .next u ∧ StillRunning s u ∧ step u = exec i u by
    obtain ⟨k, u, hk, hu, ⟨hup, hcur, hchk, hbuf⟩, hstep⟩ := h
    exact ⟨k, u, hk, hu, hup, hcur, hchk, hbuf, hstep⟩
  induction hn : s.latLeft generalizing s with
  | zero => exact ⟨0, s, le_rfl, rfl, .refl hp, step_eq_exec_of_no_host_move hp hd (.inl hn)⟩
  | succ n ih =>
    rcases step_completes_or_uses_move hp hd hin with hstep | ⟨t, ht, hrun, htin, htlat⟩
    · exact ⟨0, s, Nat.zero_le _, rfl, .refl hp, hstep⟩
    · have ⟨htp, hcur, _⟩ := hrun
      obtain ⟨k, u, hk, hu, hrun', hstep⟩ := ih t htp (hcur ▸ hd) htin (by omega)
      exact ⟨k + 1, u, Nat.succ_le_succ hk, (run_succ_of_step ht k).trans hu, hrun.trans hrun', hstep⟩

/-! ### Repeated addresses (70_reset_and_hazards.md R287) -/

/-- At a stride that is a multiple of 64, words 0 and 4 stand at the same address. -/
theorem addr_zero_eq_addr_four {r : Strided} (h : r.stride.toNat % 64 = 0) : r.addr 0 = r.addr 4 := by
  refine congrArg (r.base + ·) (BitVec.eq_of_toNat_eq ?_)
  simp [BitVec.toNat_mul]
  omega

/-- Settles O55: a multiple of 64 repeats word 0 at index 4, and at every other stride the eight multiples differ. -/
theorem stridesThatRepeatAddresses : Obligations.StridesThatRepeatAddresses := by
  refine fun r => ⟨fun hinj h => absurd (hinj 0 4 (addr_zero_eq_addr_four h)) (by decide), fun h i j heq => ?_⟩
  exact mul_stride_inj h ((BitVec.add_right_inj r.base).mp heq)

end Sys2Proof.Machine
